-- ==== Sys2Proof/Word.lean ====
section
/-! DEFINITION. The word of the machine: a register value, a data word and an instruction word are
all 32 bits wide (spec/00_scope.md R6, XLEN). The signed reading of a word is `BitVec.toInt` (the
spec's `Int32` value), its unsigned pattern is `BitVec.toNat` (the spec's `pat`, R8). -/

namespace Sys2Proof

/-- A 32-bit word. The spec's `Int32` value `v` is the word `w` with `w.toInt = v` (R8). -/
abbrev Word := BitVec 32

end Sys2Proof
end

