-- ==== Sys2Proof/Config.lean ====
section
/-! DEFINITION. The three parameters that spec/00_scope.md R6 leaves OPEN. They are fixed when the
machine is constructed (spec/70_reset_and_hazards.md R170). The machine carries them in its state
(log entry 1) and no step changes them, so a statement about every state holds for every value of
the parameters. -/

namespace Sys2Proof

/-- DIV_ROUND (R6, R110, D12): how `div` rounds a quotient that is not an integer. -/
inductive DivRound where
  /-- toward zero -/
  | trunc
  /-- toward minus infinity -/
  | floor
deriving DecidableEq, Repr

/-- The OPEN parameters of R6. -/
structure Config where
  /-- MEM_WORDS: the number of memory cells. -/
  memWords : Nat
  /-- DIV_ROUND: the rounding of `div`. -/
  divRound : DivRound
  /-- SB_SWAPPED: whether `sb` addresses through `tgt` and takes its data from `base` (R136, D16). -/
  sbSwapped : Bool
deriving DecidableEq, Repr

/-- The defaults that R6 gives the OPEN parameters. -/
def Config.standard : Config := { memWords := 127, divRound := .trunc, sbSwapped := true }

/-- The range R6 gives MEM_WORDS: 1 <= MEM_WORDS <= 2^31 - 1 (D22). -/
def Config.wf (c : Config) : Bool := decide (1 ≤ c.memWords) && decide (c.memWords ≤ 2 ^ 31 - 1)

end Sys2Proof
end

