-- ==== Sys2Proof/Syntax.lean ====
section
/-! DEFINITION. Instruction records (spec/00_scope.md R11, spec/30_encoding.md R62 to R68): one
constructor per row of spec/opcode_table.json, in the table's order. A record holds exactly the
fields its shape has; ignored bits are not part of it (R72). -/

namespace Sys2Proof

/-- The code of a general register, 0 to 31 (spec/10_state.md R13). -/
abbrev RegCode := Fin 32

/-- A register operand of a record (R68): "an explicit 'absent' marker, never a default register
reference", or a register. The decoder never makes `reg 0` (see `Operand.wf`). -/
inductive Operand where
  /-- the field was all zero: operand absent -/
  | absent
  /-- the register with this code -/
  | reg (r : RegCode)
deriving DecidableEq, Repr

/-- An instruction record. `rs`, `rt`, `rd`, `tgt`, `base`, `shamt`, `imm` and `target` are the
fields R11 names. -/
inductive Instr where
  | add (rd rs rt : Operand)
  | sub (rd rs rt : Operand)
  | addu (rd rs rt : Operand)
  | subu (rd rs rt : Operand)
  | and (rd rs rt : Operand)
  | or (rd rs rt : Operand)
  | xor (rd rs rt : Operand)
  | nor (rd rs rt : Operand)
  | slt (rd rs rt : Operand)
  | mfhi (rd : Operand)
  | mflo (rd : Operand)
  | mult (rs rt : Operand)
  | multu (rs rt : Operand)
  | div (rs rt : Operand)
  | divu (rs rt : Operand)
  | sll (rd rt : Operand) (shamt : BitVec 5)
  | srl (rd rt : Operand) (shamt : BitVec 5)
  | sra (rd rt : Operand) (shamt : BitVec 5)
  | sllv (rd rt rs : Operand)
  | srlv (rd rt rs : Operand)
  | srav (rd rt rs : Operand)
  | addi (rt rs : Operand) (imm : BitVec 16)
  | addiu (rt rs : Operand) (imm : BitVec 16)
  | slti (rt rs : Operand) (imm : BitVec 16)
  | andi (rt rs : Operand) (imm : BitVec 16)
  | ori (rt rs : Operand) (imm : BitVec 16)
  | xori (rt rs : Operand) (imm : BitVec 16)
  | lw (tgt base : Operand) (imm : BitVec 16)
  | sw (tgt base : Operand) (imm : BitVec 16)
  | lb (tgt base : Operand) (imm : BitVec 16)
  | lbu (tgt base : Operand) (imm : BitVec 16)
  | sb (tgt base : Operand) (imm : BitVec 16)
  | jr (rs : Operand)
  | j (target : BitVec 26)
  | jal (target : BitVec 26)
  | beq (rs rt : Operand) (imm : BitVec 16)
  | bne (rs rt : Operand) (imm : BitVec 16)
  | bltz (rs : Operand) (imm : BitVec 16)
deriving DecidableEq, Repr

end Sys2Proof
end

