-- ==== Sys2Proof/WellFormed.lean ====
section
/-! DEFINITION. Which records the decoder can make. The one check the types leave open is that no
operand is an explicit reference to register 0: an all-zero register field is "operand absent"
(spec/30_encoding.md R68; spec/10_state.md R15 "It is never explicitly targeted"). -/

namespace Sys2Proof

/-- An operand a decoder can make: absent, or a register other than 0. -/
def Operand.wf : Operand → Bool
  | .absent => true
  | .reg r => r != 0

/-- The register operands of a record. -/
def Instr.operands : Instr → List Operand
  | .add rd rs rt => [rd, rs, rt]
  | .sub rd rs rt => [rd, rs, rt]
  | .addu rd rs rt => [rd, rs, rt]
  | .subu rd rs rt => [rd, rs, rt]
  | .and rd rs rt => [rd, rs, rt]
  | .or rd rs rt => [rd, rs, rt]
  | .xor rd rs rt => [rd, rs, rt]
  | .nor rd rs rt => [rd, rs, rt]
  | .slt rd rs rt => [rd, rs, rt]
  | .mfhi rd => [rd]
  | .mflo rd => [rd]
  | .mult rs rt => [rs, rt]
  | .multu rs rt => [rs, rt]
  | .div rs rt => [rs, rt]
  | .divu rs rt => [rs, rt]
  | .sll rd rt _ => [rd, rt]
  | .srl rd rt _ => [rd, rt]
  | .sra rd rt _ => [rd, rt]
  | .sllv rd rt rs => [rd, rt, rs]
  | .srlv rd rt rs => [rd, rt, rs]
  | .srav rd rt rs => [rd, rt, rs]
  | .addi rt rs _ => [rt, rs]
  | .addiu rt rs _ => [rt, rs]
  | .slti rt rs _ => [rt, rs]
  | .andi rt rs _ => [rt, rs]
  | .ori rt rs _ => [rt, rs]
  | .xori rt rs _ => [rt, rs]
  | .lw tgt base _ => [tgt, base]
  | .sw tgt base _ => [tgt, base]
  | .lb tgt base _ => [tgt, base]
  | .lbu tgt base _ => [tgt, base]
  | .sb tgt base _ => [tgt, base]
  | .jr rs => [rs]
  | .j _ => []
  | .jal _ => []
  | .beq rs rt _ => [rs, rt]
  | .bne rs rt _ => [rs, rt]
  | .bltz rs _ => [rs]

/-- A record the decoder can make: no operand names register 0 explicitly. -/
def Instr.wf (i : Instr) : Bool := i.operands.all Operand.wf

end Sys2Proof
end

