-- ==== Sys2Proof/Decode.lean ====
section
/-! DEFINITION. The decoder (spec/30_encoding.md R59 to R78), a pure total function of the 32-bit
word (R82), and the encoder written from the same tables. Bits are numbered 31 down to 0 (R7).
The numeric opcodes and function codes are the spec's decision D5. -/

namespace Sys2Proof

/-! ## Fields of a word -/

/-- `w[31:26]`, the opcode (R60). -/
def opcodeField (w : Word) : BitVec 6 := w.extractLsb' 26 6
/-- `w[25:21]`, the first register field (R62, R64, R65, R66). -/
def fieldA (w : Word) : BitVec 5 := w.extractLsb' 21 5
/-- `w[20:16]`, the second register field (R62, R64, R65, R66). -/
def fieldB (w : Word) : BitVec 5 := w.extractLsb' 16 5
/-- `w[15:11]`, the destination field of the register class (R62). -/
def fieldD (w : Word) : BitVec 5 := w.extractLsb' 11 5
/-- `w[10:6]`, the shift amount (R62, R71). -/
def shamtField (w : Word) : BitVec 5 := w.extractLsb' 6 5
/-- `w[5:0]`, the function field (R60). -/
def functField (w : Word) : BitVec 6 := w.extractLsb' 0 6
/-- `w[15:0]`, the immediate (R69). -/
def immField (w : Word) : BitVec 16 := w.extractLsb' 0 16
/-- `w[25:0]`, the jump target (R67). -/
def targetField (w : Word) : BitVec 26 := w.extractLsb' 0 26

/-- The operand a register field decodes to: absent when all zero (R68). -/
def Operand.ofField (f : BitVec 5) : Operand :=
  if f = 0 then .absent else .reg ⟨f.toNat, f.isLt⟩

/-- The register field an operand is encoded in (R68). -/
def Operand.field : Operand → BitVec 5
  | .absent => 0
  | .reg r => BitVec.ofNat 5 r.val

/-- The operand in `w[25:21]`: `rs`, or `tgt` in the memory class (R62, R64, R65, R66). -/
def opA (w : Word) : Operand := .ofField (fieldA w)
/-- The operand in `w[20:16]`: `rt`, or `base` in the memory class (R62, R64, R65, R66). -/
def opB (w : Word) : Operand := .ofField (fieldB w)
/-- The operand in `w[15:11]`: `rd` (R62). -/
def opD (w : Word) : Operand := .ofField (fieldD w)

/-! ## Decoding -/

/-- Why a word is no instruction (R77): the DecodeError, by name. -/
inductive DecodeError where
  /-- opcode zero and a function value outside the table of R73 -/
  | unknownFunct (f : BitVec 6)
  /-- a non-zero opcode outside the tables of R74 and R75 -/
  | unknownOpcode (op : BitVec 6)
deriving DecidableEq, Repr

/-- The function table (R73), for words whose opcode is zero. -/
def decodeRegister (w : Word) : Except DecodeError Instr :=
  match (functField w).toNat with
  | 0x00 => .ok (.sll (opD w) (opB w) (shamtField w))
  | 0x02 => .ok (.srl (opD w) (opB w) (shamtField w))
  | 0x03 => .ok (.sra (opD w) (opB w) (shamtField w))
  | 0x04 => .ok (.sllv (opD w) (opB w) (opA w))
  | 0x06 => .ok (.srlv (opD w) (opB w) (opA w))
  | 0x07 => .ok (.srav (opD w) (opB w) (opA w))
  | 0x08 => .ok (.jr (opA w))
  | 0x10 => .ok (.mfhi (opD w))
  | 0x12 => .ok (.mflo (opD w))
  | 0x18 => .ok (.mult (opA w) (opB w))
  | 0x19 => .ok (.multu (opA w) (opB w))
  | 0x1A => .ok (.div (opA w) (opB w))
  | 0x1B => .ok (.divu (opA w) (opB w))
  | 0x20 => .ok (.add (opD w) (opA w) (opB w))
  | 0x21 => .ok (.addu (opD w) (opA w) (opB w))
  | 0x22 => .ok (.sub (opD w) (opA w) (opB w))
  | 0x23 => .ok (.subu (opD w) (opA w) (opB w))
  | 0x24 => .ok (.and (opD w) (opA w) (opB w))
  | 0x25 => .ok (.or (opD w) (opA w) (opB w))
  | 0x26 => .ok (.xor (opD w) (opA w) (opB w))
  | 0x27 => .ok (.nor (opD w) (opA w) (opB w))
  | 0x2A => .ok (.slt (opD w) (opA w) (opB w))
  | _ => .error (.unknownFunct (functField w))

/-- The opcode table of the immediate class (R74): field A is the first register and field B the
second; arithmetic writes field B (R64), the memory class has `tgt` in field A and `base` in field B
(R65, C3, D15). -/
def decodeImmediate (w : Word) : Except DecodeError Instr :=
  match (opcodeField w).toNat with
  | 0x01 => .ok (.bltz (opA w) (immField w))
  | 0x04 => .ok (.beq (opA w) (opB w) (immField w))
  | 0x05 => .ok (.bne (opA w) (opB w) (immField w))
  | 0x08 => .ok (.addi (opB w) (opA w) (immField w))
  | 0x09 => .ok (.addiu (opB w) (opA w) (immField w))
  | 0x0A => .ok (.slti (opB w) (opA w) (immField w))
  | 0x0C => .ok (.andi (opB w) (opA w) (immField w))
  | 0x0D => .ok (.ori (opB w) (opA w) (immField w))
  | 0x0E => .ok (.xori (opB w) (opA w) (immField w))
  | 0x20 => .ok (.lb (opA w) (opB w) (immField w))
  | 0x23 => .ok (.lw (opA w) (opB w) (immField w))
  | 0x24 => .ok (.lbu (opA w) (opB w) (immField w))
  | 0x28 => .ok (.sb (opA w) (opB w) (immField w))
  | 0x2B => .ok (.sw (opA w) (opB w) (immField w))
  | _ => .error (.unknownOpcode (opcodeField w))

/-- The classification of R61, in its order: opcode zero, then the two jump opcodes (R75), then the
immediate class. -/
def decode (w : Word) : Except DecodeError Instr :=
  match (opcodeField w).toNat with
  | 0x00 => decodeRegister w
  | 0x02 => .ok (.j (targetField w))
  | 0x03 => .ok (.jal (targetField w))
  | _ => decodeImmediate w

/-! ## Encoding -/

/-- A word of the register class (R60), ignored fields given as zeros. -/
def rWord (a b d shamt : BitVec 5) (funct : BitVec 6) : Word :=
  ((((0#6 ++ a) ++ b) ++ d) ++ shamt) ++ funct

/-- A word of the immediate class (R60). -/
def iWord (op : BitVec 6) (a b : BitVec 5) (imm : BitVec 16) : Word := ((op ++ a) ++ b) ++ imm

/-- A word of the jump class (R60). -/
def jWord (op : BitVec 6) (target : BitVec 26) : Word := op ++ target

/-- The word of a record, with zeros in the bits its shape ignores (R60 to R75). -/
def encode : Instr → Word
  | .add rd rs rt => rWord rs.field rt.field rd.field 0 0x20
  | .sub rd rs rt => rWord rs.field rt.field rd.field 0 0x22
  | .addu rd rs rt => rWord rs.field rt.field rd.field 0 0x21
  | .subu rd rs rt => rWord rs.field rt.field rd.field 0 0x23
  | .and rd rs rt => rWord rs.field rt.field rd.field 0 0x24
  | .or rd rs rt => rWord rs.field rt.field rd.field 0 0x25
  | .xor rd rs rt => rWord rs.field rt.field rd.field 0 0x26
  | .nor rd rs rt => rWord rs.field rt.field rd.field 0 0x27
  | .slt rd rs rt => rWord rs.field rt.field rd.field 0 0x2A
  | .mfhi rd => rWord 0 0 rd.field 0 0x10
  | .mflo rd => rWord 0 0 rd.field 0 0x12
  | .mult rs rt => rWord rs.field rt.field 0 0 0x18
  | .multu rs rt => rWord rs.field rt.field 0 0 0x19
  | .div rs rt => rWord rs.field rt.field 0 0 0x1A
  | .divu rs rt => rWord rs.field rt.field 0 0 0x1B
  | .sll rd rt shamt => rWord 0 rt.field rd.field shamt 0x00
  | .srl rd rt shamt => rWord 0 rt.field rd.field shamt 0x02
  | .sra rd rt shamt => rWord 0 rt.field rd.field shamt 0x03
  | .sllv rd rt rs => rWord rs.field rt.field rd.field 0 0x04
  | .srlv rd rt rs => rWord rs.field rt.field rd.field 0 0x06
  | .srav rd rt rs => rWord rs.field rt.field rd.field 0 0x07
  | .addi rt rs imm => iWord 0x08 rs.field rt.field imm
  | .addiu rt rs imm => iWord 0x09 rs.field rt.field imm
  | .slti rt rs imm => iWord 0x0A rs.field rt.field imm
  | .andi rt rs imm => iWord 0x0C rs.field rt.field imm
  | .ori rt rs imm => iWord 0x0D rs.field rt.field imm
  | .xori rt rs imm => iWord 0x0E rs.field rt.field imm
  | .lw tgt base imm => iWord 0x23 tgt.field base.field imm
  | .sw tgt base imm => iWord 0x2B tgt.field base.field imm
  | .lb tgt base imm => iWord 0x20 tgt.field base.field imm
  | .lbu tgt base imm => iWord 0x24 tgt.field base.field imm
  | .sb tgt base imm => iWord 0x28 tgt.field base.field imm
  | .jr rs => rWord rs.field 0 0 0 0x08
  | .j target => jWord 0x02 target
  | .jal target => jWord 0x03 target
  | .beq rs rt imm => iWord 0x04 rs.field rt.field imm
  | .bne rs rt imm => iWord 0x05 rs.field rt.field imm
  | .bltz rs imm => iWord 0x01 rs.field 0 imm

/-- The bits of a word that its record keeps: the opcode, the function field of the register class
and the fields of the shape. The others are ignored (R72; "ignored" in spec/opcode_table.json). -/
def Instr.keptBits : Instr → Word
  | .add _ _ _ | .sub _ _ _ | .addu _ _ _ | .subu _ _ _ => 0xFFFFF83F
  | .and _ _ _ | .or _ _ _ | .xor _ _ _ | .nor _ _ _ | .slt _ _ _ => 0xFFFFF83F
  | .mfhi _ | .mflo _ => 0xFC00F83F
  | .mult _ _ | .multu _ _ | .div _ _ | .divu _ _ => 0xFFFF003F
  | .sll _ _ _ | .srl _ _ _ | .sra _ _ _ => 0xFC1FFFFF
  | .sllv _ _ _ | .srlv _ _ _ | .srav _ _ _ => 0xFFFFF83F
  | .addi _ _ _ | .addiu _ _ _ | .slti _ _ _ | .andi _ _ _ | .ori _ _ _ | .xori _ _ _ => 0xFFFFFFFF
  | .lw _ _ _ | .sw _ _ _ | .lb _ _ _ | .lbu _ _ _ | .sb _ _ _ => 0xFFFFFFFF
  | .jr _ => 0xFFE0003F
  | .j _ | .jal _ => 0xFFFFFFFF
  | .beq _ _ _ | .bne _ _ _ => 0xFFFFFFFF
  | .bltz _ _ => 0xFFE0FFFF

/-! ## The host's reading of a table row -/

/-- The instruction the decoder reads from the low `nbits` bits of `w`, the bits above being zero.
One instruction is one 32-bit word (R59), handed to the decoder whole (R45: there is no byte
order). -/
def decodeTableWord (nbits w : Nat) : Option Instr :=
  match decode (BitVec.ofNat 32 (w % 2 ^ nbits)) with
  | .ok i => some i
  | .error _ => none

end Sys2Proof
end

