-- ==== Sys2Proof/Machine/State.lean ====
section
/-! DEFINITION. The complete machine state (spec/10_state.md R34): `(x[0..31], HI, LO, pc, mem, lp,
status)`, with the OPEN parameters of spec/00_scope.md R6 carried along (log entry 1); the reasons a
step can stop; and the state after reset (R32). -/

namespace Sys2Proof.Machine

/-- One memory cell (spec/20_memory.md R36): a decoded instruction record, or a data word. -/
inductive Cell where
  /-- `Instr(r)`: a loaded record, "created once ... and never mutated" (R31) -/
  | instr (i : Instr)
  /-- `Data(v)`: a data word -/
  | data (v : Word)
deriving DecidableEq, Repr

/-- Memory: the cells that differ from `Data(0)`, as (index, cell) pairs with rising indices. The
unit is the word-sized cell, the only thing this machine addresses (R37; log entry 3). -/
abbrev Memory := List (Nat × Cell)

/-- The fault kinds (spec/60_exceptions.md R153), an enumeration without numeric codes (R169). -/
inductive FaultKind where
  /-- a malformed input line, outside the block: no operation of the model raises it (R154) -/
  | parseError
  /-- a word in no opcode table, at load (R156) -/
  | decodeError
  /-- an index outside `0 <= a < MEM_WORDS` (R157) -/
  | memoryFault
  /-- a data load from a cell that holds an instruction record (R159, D18) -/
  | instrCellRead
  /-- a record with no operation: unreachable, dispatch is exhaustive (R158, C1) -/
  | internalError
deriving DecidableEq, Repr

/-- The run status (spec/10_state.md R27). -/
inductive Status where
  | running
  | halted
  | faulted (kind : FaultKind)
deriving DecidableEq, Repr

/-- A fault being raised, with the information R153 suggests it carries: `raise F(info)` of
spec/00_scope.md R10. Only its kind reaches the state (R155). -/
inductive Raised where
  /-- the word the decoder refused, and why -/
  | decodeError (w : Word) (why : DecodeError)
  /-- the index outside the memory -/
  | memoryFault (a : Int)
  /-- the index of the instruction cell that was loaded from -/
  | instrCellRead (a : Int)
deriving DecidableEq, Repr

/-- Why `step` answers no next state. The machine's own faults are next states whose status is
`faulted` (R155; log entry 2); these reasons say that no step is taken from a terminal state. -/
inductive Fault where
  /-- Raised by `step` when the run has halted: "no step is taken" (R89). Safe: the machine has no
  behaviour here that the model leaves out. -/
  | runHalted
  /-- Raised by `step` when a fault has ended the run (R89, R155). Safe, for the same reason. -/
  | runFaulted (kind : FaultKind)
deriving DecidableEq, Repr

/-- Why an instruction has no meaning. -/
inductive Refusal where
  /-- Raised by `exec` for an instruction whose meaning is not written yet. Safe. No arm of `exec`
  raises it: all 38 instructions have their meaning. -/
  | notModelled (mnemonic : String)
deriving DecidableEq, Repr

/-- The machine state (R34). -/
structure State where
  /-- the 32 general registers (R13) -/
  x : Vector Word 32
  /-- HI (R21) -/
  hi : Word
  /-- LO (R21) -/
  lo : Word
  /-- the program counter, an index of a cell without width (R23, D21) -/
  pc : Int
  /-- the memory (R36) -/
  mem : Memory
  /-- the load pointer (R26) -/
  lp : Nat
  /-- the run status (R27) -/
  status : Status
  /-- the OPEN parameters (R6; the model's own field, log entry 1) -/
  config : Config
deriving DecidableEq, Repr

/-- Reset is construction with the host's parameters (spec/70_reset_and_hazards.md R175): every
register, HI, LO and every cell zero, `lp` and `pc` 0, status `Running` (R32; D20, D25). -/
def State.construct (c : Config) : State where
  x := Vector.replicate 32 0
  hi := 0
  lo := 0
  pc := 0
  mem := []
  lp := 0
  status := .running
  config := c

/-- The machine right after reset, at the parameter defaults of R6 (log entry 1). -/
def State.reset : State := State.construct Config.standard

end Sys2Proof.Machine
end

