-- ==== Sys2Proof/Machine/Ops.lean ====
section
/-! DEFINITION. The named operations over registers, memory and control that spec/00_scope.md R9 and
R10 define, and the one shared operation for raising a fault (spec/60_exceptions.md R155). This
machine has no trap entry and no return from one (R163, R164): raising a fault is the whole of it. -/

namespace Sys2Proof.Machine

/-! ## Memory cells -/

/-- What a cell that nothing has touched holds: `Data(0)` (spec/10_state.md R32). -/
def Cell.untouched : Cell := .data 0

/-- The cell at an index. -/
def Memory.read : Memory → Nat → Cell
  | [], _ => Cell.untouched
  | (b, c) :: rest, a => if a = b then c else Memory.read rest a

/-- The pair (a, c) in front of a memory, unless it says what an unlisted index reads as. -/
def Memory.consCell (a : Nat) (c : Cell) (m : Memory) : Memory :=
  if c = Cell.untouched then m else (a, c) :: m

/-- The memory with cell `a` replaced by `c`, in canonical form. -/
def Memory.write : Memory → Nat → Cell → Memory
  | [], a, c => Memory.consCell a c []
  | (b, d) :: rest, a, c =>
    if a < b then Memory.consCell a c ((b, d) :: rest)
    else if a = b then Memory.consCell a c rest
    else (b, d) :: Memory.write rest a c

/-- Every index of a memory lies above `a`. -/
def Memory.above (a : Nat) (m : Memory) : Bool := m.all fun p => decide (a < p.1)

/-- The canonical form: indices strictly rising, no entry equal to what an unlisted index reads as. -/
def Memory.wf : Memory → Bool
  | [] => true
  | (b, c) :: rest => decide (c ≠ Cell.untouched) && Memory.above b rest && Memory.wf rest

/-- `mem[a]` (R34). -/
def State.cell (s : State) (a : Nat) : Cell := s.mem.read a

/-- `0 <= a < MEM_WORDS`, the only check an index meets (spec/20_memory.md R37, R49). -/
def State.inRange (s : State) (a : Int) : Bool := decide (0 ≤ a) && decide (a < s.config.memWords)

/-! ## Registers -/

/-- `x[r]` (R9). -/
def State.reg (s : State) (r : RegCode) : Word := s.x[r.val]

/-- `x[r] <- v` (R9). Register 0 is an ordinary cell here (spec/10_state.md R15). -/
def State.setReg (s : State) (r : RegCode) (v : Word) : State := { s with x := s.x.set r.val v }

/-- `src(f)`: 0 when the operand is absent, else the register (R9; spec/10_state.md R19, D2). -/
def State.src (s : State) : Operand → Word
  | .absent => 0
  | .reg r => s.reg r

/-- `dst(f, v)`: nothing when the operand is absent, else the register is written (R9;
spec/10_state.md R20, D3). The caller has narrowed `v`. -/
def State.dst (s : State) (o : Operand) (v : Word) : State :=
  match o with
  | .absent => s
  | .reg r => s.setReg r v

/-- `HI <- h`, `LO <- l`, together (R9; spec/10_state.md R22). -/
def State.setHiLo (s : State) (h l : Word) : State := { s with hi := h, lo := l }

/-! ## Control -/

/-- `pc <- t` (R10). -/
def State.setPc (s : State) (t : Int) : State := { s with pc := t }

/-- The uniform advance by one (spec/40_execution_cycle.md R87). -/
def State.advance (s : State) : State := { s with pc := s.pc + 1 }

/-- The successful end of a run (R85): the status, and nothing else. -/
def State.halt (s : State) : State := { s with status := .halted }

/-- The kind of a fault. -/
def Raised.kind : Raised → FaultKind
  | .decodeError _ _ => .decodeError
  | .memoryFault _ => .memoryFault
  | .instrCellRead _ => .instrCellRead

/-- `raise F(info)`: the status becomes `Faulted(F)`; no write of the instruction commits, `pc` is
not advanced, nothing is saved, nothing else happens (spec/60_exceptions.md R155, R163; D25). -/
def State.raise (s : State) (r : Raised) : State := { s with status := .faulted r.kind }

/-! ## Memory access -/

/-- `Fetch(pc)` (spec/20_memory.md R40; spec/40_execution_cycle.md R84). -/
def State.fetch (s : State) : Except Raised Cell :=
  if s.inRange s.pc then .ok (s.cell s.pc.toNat) else .error (.memoryFault s.pc)

/-- `MemRead(a, 1)` (spec/20_memory.md R41). -/
def State.memRead (s : State) (a : Int) : Except Raised Word :=
  if s.inRange a then
    match s.cell a.toNat with
    | .data v => .ok v
    | .instr _ => .error (.instrCellRead a)
  else .error (.memoryFault a)

/-- The state with cell `a` holding `c`. -/
def State.putCell (s : State) (a : Nat) (c : Cell) : State := { s with mem := s.mem.write a c }

/-- `MemWrite(a, 1, v)` (spec/20_memory.md R42): the whole cell becomes `Data(v)`, whatever it
held. -/
def State.memWrite (s : State) (a : Int) (v : Word) : Except Raised State :=
  if s.inRange a then .ok (s.putCell a.toNat (.data v)) else .error (.memoryFault a)

/-! ## How an instruction ends -/

/-- The end of an instruction that cannot fault: the uniform advance (R87). -/
def State.done (s : State) : Host.Outcome State Fault Refusal := .next s.advance

/-- The end of an instruction that accesses memory: the advance after its effect, or the fault
raised in the state `s` the instruction began in (R88). -/
def State.doneOr (s : State) (e : Except Raised State) : Host.Outcome State Fault Refusal :=
  match e with
  | .ok t => t.done
  | .error r => .next (s.raise r)

/-! ## Placing an instruction where the next fetch finds it -/

/-- The state in which cell `pc` holds the record `i` as the load procedure would leave it: the cell
an instruction, `lp` beyond it (R43), the run started (spec/70_reset_and_hazards.md R173). -/
def State.placeAtPc (s : State) (i : Instr) : State :=
  { s with mem := s.mem.write s.pc.toNat (.instr i), lp := max s.lp (s.pc.toNat + 1),
           status := .running }

end Sys2Proof.Machine
end

