-- ==== Sys2Proof/Machine/Operands.lean ====
section
/-! DEFINITION. The values instructions compute from their operands, in the notation of
spec/00_scope.md R8 and R10: `wrap32`, `abs`, the effective address, the shift amount, the halves of
a product, the quotient, and the byte of spec/45_load_store.md R137. Arithmetic is on unbounded
integers and is narrowed by `wrap32` at the end (R8). -/

namespace Sys2Proof.Machine

/-- `wrap32(z)`: the word congruent to `z` modulo 2^32 (R8, D1). -/
def wrap32 (z : Int) : Word := BitVec.ofInt 32 z

/-- `src(f)` as the integer the rules compute with (R8). -/
def State.srcInt (s : State) (o : Operand) : Int := (s.src o).toInt

/-- `abs(src(f))`, exact, so `abs(-2^31) = 2^31` (R8; spec/41_arith_logic_compare.md R103(d)). -/
def State.srcAbs (s : State) (o : Operand) : Int := ((s.srcInt o).natAbs : Int)

/-- The immediate as an integer: unsigned, never extended with a sign (spec/30_encoding.md R69). -/
def immInt (imm : BitVec 16) : Int := (imm.toNat : Int)

/-- The immediate as a 32-bit pattern: `zext_16` (R10). -/
def immWord (imm : BitVec 16) : Word := imm.setWidth 32

/-- The one addressing mode (spec/45_load_store.md R131): register plus unsigned offset, an
unbounded integer (spec/20_memory.md R39). -/
def State.effAddr (s : State) (o : Operand) (imm : BitVec 16) : Int := s.srcInt o + immInt imm

/-- The amount of a variable shift: `pat(src(rs)) mod 32` (spec/43_shifts.md R121, D9). -/
def State.shiftAmount (s : State) (o : Operand) : Nat := (s.src o).toNat % 32

/-- The left shift of a pattern, bits shifted out lost (spec/43_shifts.md R115). -/
def shiftLeft (v : Word) (n : Nat) : Word := v <<< n

/-- The logical right shift of a pattern, zeros entering at the top (spec/43_shifts.md R116, D10). -/
def shiftRight (v : Word) (n : Nat) : Word := v >>> n

/-- The upper 32 bits of a product taken as a 64-bit two's-complement pattern
(spec/42_move_muldiv.md R105, R108; D11). -/
def productHi (p : Int) : Word := (BitVec.ofInt 64 p).extractLsb' 32 32

/-- The lower 32 bits of a product taken as a 64-bit two's-complement pattern (R105, R108; D11). -/
def productLo (p : Int) : Word := (BitVec.ofInt 64 p).extractLsb' 0 32

/-- `quot(a, b)` for `b != 0`: rounded toward zero or toward minus infinity (R110, D12). -/
def quot (r : DivRound) (a b : Int) : Int :=
  match r with
  | .trunc => a.tdiv b
  | .floor => a.fdiv b

/-- LO after a division: 0 for a zero divisor, else the quotient (R110). -/
def divLo (r : DivRound) (a b : Int) : Word := if b = 0 then 0 else wrap32 (quot r a b)

/-- HI after a division: 0 for a zero divisor, else `a - q * b` (R110). -/
def divHi (r : DivRound) (a b : Int) : Word := if b = 0 then 0 else wrap32 (a - quot r a b * b)

/-- `topbyte(v)`: bits 31 to 24 (spec/45_load_store.md R137). -/
def topByte (v : Word) : BitVec 8 := v.extractLsb' 24 8

/-- `sext_8(topbyte(v))`, the "byte-as-word" of `lb`, `lbu` and `sb` (R134 to R137). -/
def byteAsWord (v : Word) : Word := (topByte v).signExtend 32

/-- The operand `sb` takes its address from: `tgt` when SB_SWAPPED, else `base` (R136, D16). -/
def State.sbAddrOperand (s : State) (tgt base : Operand) : Operand :=
  if s.config.sbSwapped then tgt else base

/-- The operand `sb` takes its data from: `base` when SB_SWAPPED, else `tgt` (R136, D16). -/
def State.sbDataOperand (s : State) (tgt base : Operand) : Operand :=
  if s.config.sbSwapped then base else tgt

end Sys2Proof.Machine
end

