-- ==== Sys2Proof/Machine/Flags.lean ====
section
/-! DEFINITION. The machine has no flag and no condition code (spec/10_state.md R28); a comparison
is written to a register (`slt`, `slti`) or consumed at once by a branch. These are the comparisons,
all on signed values (spec/41_arith_logic_compare.md R103(f)). -/

namespace Sys2Proof.Machine

/-- 1 when `a < b`, else 0 (spec/44_immediate.md R126, D30). -/
def lessThan (a b : Int) : Word := if a < b then 1 else 0

/-- What the register form `slt` writes: 0, whatever its sources (R102). -/
def sltResult : Word := 0

/-- The condition of `beq` and, negated, of `bne` (spec/46_control_transfer.md R145, R146). -/
def State.sameSource (s : State) (rs rt : Operand) : Bool := decide (s.srcInt rs = s.srcInt rt)

/-- The condition of `bltz` (R147). -/
def State.negSource (s : State) (rs : Operand) : Bool := decide (s.srcInt rs < 0)

/-- A branch: when taken, the offset is added to `pc` as it stood at dispatch (R141); the uniform
advance follows in either case (spec/40_execution_cycle.md R87). -/
def State.branch (s : State) (taken : Bool) (imm : BitVec 16) : State :=
  if taken then s.setPc (s.pc + immInt imm) else s

end Sys2Proof.Machine
end

