-- ==== Sys2Proof/Machine/Arith.lean ====
section
/-! DEFINITION. Register-type arithmetic, logic and comparison (spec/41_arith_logic_compare.md R93 to R102).
Sources are read before the destination is written (spec/40_execution_cycle.md R91). -/

namespace Sys2Proof.Machine

/-- `add` (R94): the sum wraps (D1). -/
def execAdd (rd rs rt : Operand) (s : State) : Host.Outcome State Fault Refusal :=
  (s.dst rd (wrap32 (s.srcInt rs + s.srcInt rt))).done

/-- `sub` (R95): first minus second (D8), wrapping (D1). -/
def execSub (rd rs rt : Operand) (s : State) : Host.Outcome State Fault Refusal :=
  (s.dst rd (wrap32 (s.srcInt rs - s.srcInt rt))).done

/-- `addu` (R96): the sum of the absolute values. -/
def execAddu (rd rs rt : Operand) (s : State) : Host.Outcome State Fault Refusal :=
  (s.dst rd (wrap32 (s.srcAbs rs + s.srcAbs rt))).done

/-- `subu` (R97): the difference of the absolute values, first minus second (D8). -/
def execSubu (rd rs rt : Operand) (s : State) : Host.Outcome State Fault Refusal :=
  (s.dst rd (wrap32 (s.srcAbs rs - s.srcAbs rt))).done

/-- `and` (R98). -/
def execAnd (rd rs rt : Operand) (s : State) : Host.Outcome State Fault Refusal :=
  (s.dst rd (s.src rs &&& s.src rt)).done

/-- `or` (R99). -/
def execOr (rd rs rt : Operand) (s : State) : Host.Outcome State Fault Refusal :=
  (s.dst rd (s.src rs ||| s.src rt)).done

/-- `xor` (R100). -/
def execXor (rd rs rt : Operand) (s : State) : Host.Outcome State Fault Refusal :=
  (s.dst rd (s.src rs ^^^ s.src rt)).done

/-- `nor` (R101): the complement of the OR over 32 bits. -/
def execNor (rd rs rt : Operand) (s : State) : Host.Outcome State Fault Refusal :=
  (s.dst rd (~~~(s.src rs ||| s.src rt))).done

/-- `slt` (R102): writes 0; its sources are not used. -/
def execSlt (rd _rs _rt : Operand) (s : State) : Host.Outcome State Fault Refusal :=
  (s.dst rd sltResult).done

end Sys2Proof.Machine
end

