-- ==== Sys2Proof/Machine/Control.lean ====
section
/-! DEFINITION. Control transfer (spec/46_control_transfer.md R141 to R147). Each meaning sets `pc` as the operation
says; the uniform advance of spec/40_execution_cycle.md R87 follows, so every transfer lands one cell
beyond. -/

namespace Sys2Proof.Machine

/-- `jr` (R142). -/
def execJr (rs : Operand) (s : State) : Host.Outcome State Fault Refusal :=
  (s.setPc (s.srcInt rs)).done

/-- `j` (R143): all 26 bits, unsigned (spec/30_encoding.md R67, R70; D33). -/
def execJ (target : BitVec 26) (s : State) : Host.Outcome State Fault Refusal :=
  (s.setPc (target.toNat : Int)).done

/-- `jal` (R144): the link register gets `pc0 + 1`, written directly; 31 is LINK_REG (spec/10_state.md
R16). -/
def execJal (target : BitVec 26) (s : State) : Host.Outcome State Fault Refusal :=
  ((s.setReg 31 (wrap32 (s.pc + 1))).setPc (target.toNat : Int)).done

/-- `beq` (R145). -/
def execBeq (rs rt : Operand) (imm : BitVec 16) (s : State) : Host.Outcome State Fault Refusal :=
  (s.branch (s.sameSource rs rt) imm).done

/-- `bne` (R146). -/
def execBne (rs rt : Operand) (imm : BitVec 16) (s : State) : Host.Outcome State Fault Refusal :=
  (s.branch (!s.sameSource rs rt) imm).done

/-- `bltz` (R147). -/
def execBltz (rs : Operand) (imm : BitVec 16) (s : State) : Host.Outcome State Fault Refusal :=
  (s.branch (s.negSource rs) imm).done

end Sys2Proof.Machine
end

