-- ==== Sys2Proof/Machine/Immediate.lean ====
section
/-! DEFINITION. Immediate arithmetic, logic and comparison (spec/44_immediate.md R123 to R129): the immediate is
unsigned, the destination is `rt`. -/

namespace Sys2Proof.Machine

/-- `addi` (R124). -/
def execAddi (rt rs : Operand) (imm : BitVec 16) (s : State) : Host.Outcome State Fault Refusal :=
  (s.dst rt (wrap32 (s.srcInt rs + immInt imm))).done

/-- `addiu` (R125): the absolute value of the source plus the constant. -/
def execAddiu (rt rs : Operand) (imm : BitVec 16) (s : State) : Host.Outcome State Fault Refusal :=
  (s.dst rt (wrap32 (s.srcAbs rs + immInt imm))).done

/-- `slti` (R126): a signed comparison with the unsigned constant (D30). -/
def execSlti (rt rs : Operand) (imm : BitVec 16) (s : State) : Host.Outcome State Fault Refusal :=
  (s.dst rt (lessThan (s.srcInt rs) (immInt imm))).done

/-- `andi` (R127). -/
def execAndi (rt rs : Operand) (imm : BitVec 16) (s : State) : Host.Outcome State Fault Refusal :=
  (s.dst rt (s.src rs &&& immWord imm)).done

/-- `ori` (R128). -/
def execOri (rt rs : Operand) (imm : BitVec 16) (s : State) : Host.Outcome State Fault Refusal :=
  (s.dst rt (s.src rs ||| immWord imm)).done

/-- `xori` (R129). -/
def execXori (rt rs : Operand) (imm : BitVec 16) (s : State) : Host.Outcome State Fault Refusal :=
  (s.dst rt (s.src rs ^^^ immWord imm)).done

end Sys2Proof.Machine
end

