-- ==== Sys2Proof/Machine/LoadStore.lean ====
section
/-! DEFINITION. Loads and stores (spec/45_load_store.md R131 to R138). The checks come in the order of R138; a
fault leaves the state but for its status (spec/40_execution_cycle.md R88). -/

namespace Sys2Proof.Machine

/-- `lw` (R132). -/
def execLw (tgt base : Operand) (imm : BitVec 16) (s : State) : Host.Outcome State Fault Refusal :=
  s.doneOr ((s.memRead (s.effAddr base imm)).map fun v => s.dst tgt v)

/-- `sw` (R133). -/
def execSw (tgt base : Operand) (imm : BitVec 16) (s : State) : Host.Outcome State Fault Refusal :=
  s.doneOr (s.memWrite (s.effAddr base imm) (s.src tgt))

/-- `lb` (R134): the top byte of the word, sign-extended. -/
def execLb (tgt base : Operand) (imm : BitVec 16) (s : State) : Host.Outcome State Fault Refusal :=
  s.doneOr ((s.memRead (s.effAddr base imm)).map fun v => s.dst tgt (byteAsWord v))

/-- `lbu` (R135): identical to `lb` (D14). -/
def execLbu (tgt base : Operand) (imm : BitVec 16) (s : State) : Host.Outcome State Fault Refusal :=
  s.doneOr ((s.memRead (s.effAddr base imm)).map fun v => s.dst tgt (byteAsWord v))

/-- `sb` (R136): the sign-extended top byte of the data register replaces the whole cell (D17); the two
register roles follow SB_SWAPPED (D16). -/
def execSb (tgt base : Operand) (imm : BitVec 16) (s : State) : Host.Outcome State Fault Refusal :=
  s.doneOr (s.memWrite (s.effAddr (s.sbAddrOperand tgt base) imm)
    (byteAsWord (s.src (s.sbDataOperand tgt base))))

end Sys2Proof.Machine
end

