-- ==== Sys2Proof/Machine/MulDiv.lean ====
section
/-! DEFINITION. HI/LO moves, multiply and divide (spec/42_move_muldiv.md R104 to R111). -/

namespace Sys2Proof.Machine

/-- `mfhi` (R106). -/
def execMfhi (rd : Operand) (s : State) : Host.Outcome State Fault Refusal :=
  (s.dst rd s.hi).done

/-- `mflo` (R107). -/
def execMflo (rd : Operand) (s : State) : Host.Outcome State Fault Refusal :=
  (s.dst rd s.lo).done

/-- `mult` (R108): the exact signed product in HI and LO. -/
def execMult (rs rt : Operand) (s : State) : Host.Outcome State Fault Refusal :=
  (s.setHiLo (productHi (s.srcInt rs * s.srcInt rt)) (productLo (s.srcInt rs * s.srcInt rt))).done

/-- `multu` (R109): the absolute value of the signed product in HI and LO. -/
def execMultu (rs rt : Operand) (s : State) : Host.Outcome State Fault Refusal :=
  (s.setHiLo (productHi (s.srcInt rs * s.srcInt rt).natAbs)
    (productLo (s.srcInt rs * s.srcInt rt).natAbs)).done

/-- `div` (R110): quotient in LO, remainder in HI, rounded by DIV_ROUND; a zero divisor gives 0, 0. -/
def execDiv (rs rt : Operand) (s : State) : Host.Outcome State Fault Refusal :=
  (s.setHiLo (divHi s.config.divRound (s.srcInt rs) (s.srcInt rt))
    (divLo s.config.divRound (s.srcInt rs) (s.srcInt rt))).done

/-- `divu` (R111): as `div` on the absolute values, where the rounding has no effect. -/
def execDivu (rs rt : Operand) (s : State) : Host.Outcome State Fault Refusal :=
  (s.setHiLo (divHi .floor (s.srcAbs rs) (s.srcAbs rt)) (divLo .floor (s.srcAbs rs) (s.srcAbs rt))).done

end Sys2Proof.Machine
end

