-- ==== Sys2Proof/Machine/Shift.lean ====
section
/-! DEFINITION. Shifts (spec/43_shifts.md R114 to R121): the value is `src(rt)`, the amount `shamt` or the low five
bits of `src(rs)` (D8, D9). -/

namespace Sys2Proof.Machine

/-- `sll` (R115). -/
def execSll (rd rt : Operand) (shamt : BitVec 5) (s : State) : Host.Outcome State Fault Refusal :=
  (s.dst rd (shiftLeft (s.src rt) shamt.toNat)).done

/-- `srl` (R116). -/
def execSrl (rd rt : Operand) (shamt : BitVec 5) (s : State) : Host.Outcome State Fault Refusal :=
  (s.dst rd (shiftRight (s.src rt) shamt.toNat)).done

/-- `sra` (R117): identical to `srl`, no sign fill. -/
def execSra (rd rt : Operand) (shamt : BitVec 5) (s : State) : Host.Outcome State Fault Refusal :=
  (s.dst rd (shiftRight (s.src rt) shamt.toNat)).done

/-- `sllv` (R118). -/
def execSllv (rd rt rs : Operand) (s : State) : Host.Outcome State Fault Refusal :=
  (s.dst rd (shiftLeft (s.src rt) (s.shiftAmount rs))).done

/-- `srlv` (R119). -/
def execSrlv (rd rt rs : Operand) (s : State) : Host.Outcome State Fault Refusal :=
  (s.dst rd (shiftRight (s.src rt) (s.shiftAmount rs))).done

/-- `srav` (R120): identical to `srlv`, no sign fill. -/
def execSrav (rd rt rs : Operand) (s : State) : Host.Outcome State Fault Refusal :=
  (s.dst rd (shiftRight (s.src rt) (s.shiftAmount rs))).done

end Sys2Proof.Machine
end

