-- ==== Sys2Proof/Machine/Step.lean ====
section
/-! DEFINITION. One step (spec/40_execution_cycle.md R83): fetch, halt test, dispatch and execute,
advance (the advance is the last act of every meaning, R87). From a terminal state no step is taken
(R89). And the host's way to place an instruction where `step` fetches it. -/

namespace Sys2Proof.Machine

/-- One step of the machine (R83 to R89). -/
def step (s : State) : Host.Outcome State Fault Refusal :=
  match s.status with
  | .halted => .fault .runHalted
  | .faulted k => .fault (.runFaulted k)
  | .running =>
    match s.fetch with
    | .error r => .next (s.raise r)
    | .ok (.data _) => .next s.halt
    | .ok (.instr i) => exec i s

/-- `s` with the instruction whose low `nbits` bits are `w` placed where `step` fetches next: the
record in cell `pc`, as a load would leave it (log entry 7). A word that is no instruction leaves
what a failed load leaves: `Faulted(DecodeError)` (spec/70_reset_and_hazards.md R172). -/
def State.withFetchWord (s : State) (nbits w : Nat) : State :=
  match decodeTableWord nbits w with
  | some i => s.placeAtPc i
  | none => { s with status := .faulted .decodeError }

end Sys2Proof.Machine
end

