-- ==== Sys2Proof/Machine/Load.lean ====
section
/-! DEFINITION. The host interface (spec/70_reset_and_hazards.md R170): load, start, run, observe.
Reset is `State.construct`. The host acts before the run and observes after a step; nothing here is
part of a step. -/

namespace Sys2Proof.Machine

/-- `Append(r)` (spec/20_memory.md R43): the record in cell `lp`, then `lp` one further; MemoryFault
when the memory is full (D23). -/
def State.append (s : State) (i : Instr) : Except Raised State :=
  if s.lp < s.config.memWords then .ok { s.putCell s.lp (.instr i) with lp := s.lp + 1 }
  else .error (.memoryFault s.lp)

/-- One word of a load (R172): decode, then append; a fault is fatal (R155). -/
def State.loadWord (s : State) (w : Word) : State :=
  match decode w with
  | .error why => s.raise (.decodeError w why)
  | .ok i =>
    match s.append i with
    | .ok t => t
    | .error r => s.raise r

/-- Program load (R172): the words in order, "any fault during load is fatal", so that the cells
appended before it stay and no further word is taken. -/
def State.loadProgram (s : State) : List Word → State
  | [] => s
  | w :: ws =>
    match s.status with
    | .running => (s.loadWord w).loadProgram ws
    | .halted => s
    | .faulted _ => s

/-- Starting the run (R173): after a successful load, `status <- Running` and `pc = 0`. After a
failed load the run does not start (R172). -/
def State.start (s : State) : State :=
  match s.status with
  | .running => { s with pc := 0 }
  | .halted => s
  | .faulted _ => s

/-- The run (R92): at most `fuel` steps, ending at the first terminal status. The machine itself
gives no bound; the fuel is the executor's. -/
def State.runFor (s : State) : Nat → State
  | 0 => s
  | n + 1 =>
    match step s with
    | .next t => t.runFor n
    | .fault _ => s
    | .refused _ => s

/-- What the source lets the outside see after a step (R174): the nonzero data cells in index order
and the 32 general registers in code order. -/
structure Observation where
  cells : List (Nat × Word)
  regs : Vector Word 32
deriving DecidableEq, Repr

/-- A cell as the observation lists it: a nonzero data word, else nothing. -/
def Cell.shown (a : Nat) : Cell → Option (Nat × Word)
  | .data v => if v = 0 then none else some (a, v)
  | .instr _ => none

/-- The observable projection of a state (R174): HI, LO, `pc`, `lp` and instruction cells are not
shown. -/
def State.observe (s : State) : Observation where
  cells := s.mem.filterMap fun p => p.2.shown p.1
  regs := s.x

end Sys2Proof.Machine
end

