-- ==== Sys2Proof/Safety.lean ====
section
/-! DEFINITION. What counts as a safe run, the invariant of the machine, and the frames in which
claims say what an instruction changes and what it leaves alone. -/

namespace Sys2Proof.Machine

/-! ## Families of instructions -/

/-- The families in which the rules of spec/ speak of the 38 instructions. -/
inductive Family where
  | registerArith | accMove | mulDiv | shift | immediate | load | store | jump | branch
deriving DecidableEq, Repr

/-- The family of a record (spec/41_arith_logic_compare.md to spec/46_control_transfer.md). -/
def familyOf : Instr → Family
  | .add _ _ _ | .sub _ _ _ | .addu _ _ _ | .subu _ _ _ => .registerArith
  | .and _ _ _ | .or _ _ _ | .xor _ _ _ | .nor _ _ _ | .slt _ _ _ => .registerArith
  | .mfhi _ | .mflo _ => .accMove
  | .mult _ _ | .multu _ _ | .div _ _ | .divu _ _ => .mulDiv
  | .sll _ _ _ | .srl _ _ _ | .sra _ _ _ | .sllv _ _ _ | .srlv _ _ _ | .srav _ _ _ => .shift
  | .addi _ _ _ | .addiu _ _ _ | .slti _ _ _ | .andi _ _ _ | .ori _ _ _ | .xori _ _ _ => .immediate
  | .lw _ _ _ | .lb _ _ _ | .lbu _ _ _ => .load
  | .sw _ _ _ | .sb _ _ _ => .store
  | .jr _ | .j _ | .jal _ => .jump
  | .beq _ _ _ | .bne _ _ _ | .bltz _ _ => .branch

/-! ## Runs -/

/-- A run that has ended (spec/40_execution_cycle.md R89). -/
def State.terminal (s : State) : Bool := decide (s.status ≠ .running)

/-- A run that no fault has ended: "a halted run is a success; a faulted run is a failure" (R89). -/
def State.safe (s : State) : Bool :=
  match s.status with
  | .running => true
  | .halted => true
  | .faulted _ => false

/-! ## The invariant -/

/-- What holds of every state the machine can be in. -/
structure State.Inv (s : State) : Prop where
  /-- MEM_WORDS lies in its range (spec/00_scope.md R6) -/
  configWf : s.config.wf = true
  /-- the memory is in its canonical form (log entry 3) -/
  canonical : s.mem.wf = true
  /-- register 0 is 0 (spec/10_state.md R15) -/
  zeroReg : s.reg 0 = 0
  /-- the load pointer is within the memory (spec/20_memory.md R43) -/
  loadBound : s.lp ≤ s.config.memWords
  /-- no cell outside `0 .. MEM_WORDS-1` was ever touched (R37, R42) -/
  outside : ∀ a, s.config.memWords ≤ a → s.cell a = .data 0
  /-- instruction cells lie below `lp` and hold records a decoder can make (R38) -/
  program : ∀ a i, s.cell a = .instr i → a < s.lp ∧ i.wf = true
  /-- `pc` lies in the range of spec/46_control_transfer.md R148 -/
  pcRange : -(2 ^ 31) < s.pc ∧ s.pc ≤ 2 ^ 31 + 65534

/-! ## Frames: `s` before, `t` after -/

/-- No general register changes. -/
def RegsKept (s t : State) : Prop := ∀ r, t.reg r = s.reg r

/-- Register operand `o` gets `v`; every other register keeps its value. An absent operand gets
nothing. -/
def RegGets (s t : State) (o : Operand) (v : Word) : Prop :=
  ∀ r, t.reg r = if o = .reg r then v else s.reg r

/-- HI and LO keep their values. -/
def AccKept (s t : State) : Prop := t.hi = s.hi ∧ t.lo = s.lo

/-- Every cell of memory reads as before. -/
def CellsKept (s t : State) : Prop := ∀ a, t.cell a = s.cell a

/-- The cell at index `a` becomes `Data(v)`; every other cell reads as before. -/
def CellGets (s t : State) (a : Int) (v : Word) : Prop :=
  ∀ b : Nat, t.cell b = if (b : Int) = a then .data v else s.cell b

/-- What only the host sets: the load pointer and the parameters. -/
def HostKept (s t : State) : Prop := t.lp = s.lp ∧ t.config = s.config

/-- The whole effect of an instruction that writes one register. -/
structure WritesReg (s t : State) (o : Operand) (v : Word) : Prop where
  regs : RegGets s t o v
  acc : AccKept s t
  cells : CellsKept s t
  host : HostKept s t
  status : t.status = s.status
  pc : t.pc = s.pc + 1

/-- The whole effect of an instruction that writes HI and LO. -/
structure WritesAcc (s t : State) (h l : Word) : Prop where
  regs : RegsKept s t
  hi : t.hi = h
  lo : t.lo = l
  cells : CellsKept s t
  host : HostKept s t
  status : t.status = s.status
  pc : t.pc = s.pc + 1

/-- The whole effect of a store of `v` to the cell at index `a`. -/
structure StoresCell (s t : State) (a : Int) (v : Word) : Prop where
  regs : RegsKept s t
  acc : AccKept s t
  cells : CellGets s t a v
  host : HostKept s t
  status : t.status = s.status
  pc : t.pc = s.pc + 1

/-- The whole effect of a control transfer that lands on `p` and writes no register. -/
structure GoesTo (s t : State) (p : Int) : Prop where
  regs : RegsKept s t
  acc : AccKept s t
  cells : CellsKept s t
  host : HostKept s t
  status : t.status = s.status
  pc : t.pc = p

/-- The whole effect of a step that sets the status to `q` and changes nothing else: a fault
(spec/60_exceptions.md R155) or the halt (spec/40_execution_cycle.md R85). -/
structure EndsWith (s t : State) (q : Status) : Prop where
  regs : RegsKept s t
  acc : AccKept s t
  cells : CellsKept s t
  host : HostKept s t
  status : t.status = q
  pc : t.pc = s.pc

end Sys2Proof.Machine
end

