-- ==== Sys2Proof/Certificates/Slice0/Obligations.lean ====
section
/-! DEFINITION. The statements for the provers, from the numbered rules of spec/. "D<n>" names a row
of spec/92_eei_decisions.md (the spec's own choice where its source is silent), "log entry <n>" a file
of notes/assumptions/. -/

open Sys2Proof Sys2Proof.Machine

/-- Words written out bit by bit from the encodings of spec/30_encoding.md R60 to R75 (one or more per
family) decode to the instruction they stand for, and three words of R77 are refused by name. The numeric
codes are the spec's own choice (D5), the memory-class roles D15. -/
def Obligations.DecodesWordsWrittenOut : Prop :=
  decode 0b000000_00001_00010_00011_00000_100000 = .ok (.add (.reg 3) (.reg 1) (.reg 2)) ∧
  decode 0b000000_00000_00000_00100_00000_010000 = .ok (.mfhi (.reg 4)) ∧
  decode 0b000000_00001_00010_00000_00000_011010 = .ok (.div (.reg 1) (.reg 2)) ∧
  decode 0b000000_00000_00010_00011_00100_000000 = .ok (.sll (.reg 3) (.reg 2) 4) ∧
  decode 0b000000_00001_00010_00011_00000_000100 = .ok (.sllv (.reg 3) (.reg 2) (.reg 1)) ∧
  decode 0b001000_00000_01000_0000000000000101 = .ok (.addi (.reg 8) .absent 5) ∧
  decode 0b100011_00101_00100_0000000000000011 = .ok (.lw (.reg 5) (.reg 4) 3) ∧
  decode 0b101000_00101_00100_0000000000000010 = .ok (.sb (.reg 5) (.reg 4) 2) ∧
  decode 0b000000_11111_00000_00000_00000_001000 = .ok (.jr (.reg 31)) ∧
  decode 0b000011_00000000000000000000001001 = .ok (.jal 9) ∧
  decode 0b000001_00001_00001_0000000000000101 = .ok (.bltz (.reg 1) 5) ∧
  decode 0 = .ok (.sll .absent .absent 0) ∧
  decode 0b000000_00000_00000_00000_00000_001100 = .error (.unknownFunct 0x0C) ∧
  decode 0b001111_00000_00001_0001001000110100 = .error (.unknownOpcode 0x0F) ∧
  decode 0b111111_00000_00000_0000000000000000 = .error (.unknownOpcode 0x3F)

/-- Every row of spec/opcode_table.json: a word that meets the row's mask and match value decodes to the row's
instruction with its fields at the row's bit positions (spec/30_encoding.md R60 to R75). Rests on the spec's
decisions D5 (numeric codes), D7 (rs, rt of the register class), D15 (memory-class roles), D26, D33. -/
def Obligations.EveryTableRowDecodes : Prop :=
  ∀ w : Word,
  (w &&& 0xFC00003F = 0x00000020 → decode w = .ok (.add (.ofField (w.extractLsb' 11 5)) (.ofField (w.extractLsb' 21 5)) (.ofField (w.extractLsb' 16 5)))) ∧
  (w &&& 0xFC00003F = 0x00000022 → decode w = .ok (.sub (.ofField (w.extractLsb' 11 5)) (.ofField (w.extractLsb' 21 5)) (.ofField (w.extractLsb' 16 5)))) ∧
  (w &&& 0xFC00003F = 0x00000021 → decode w = .ok (.addu (.ofField (w.extractLsb' 11 5)) (.ofField (w.extractLsb' 21 5)) (.ofField (w.extractLsb' 16 5)))) ∧
  (w &&& 0xFC00003F = 0x00000023 → decode w = .ok (.subu (.ofField (w.extractLsb' 11 5)) (.ofField (w.extractLsb' 21 5)) (.ofField (w.extractLsb' 16 5)))) ∧
  (w &&& 0xFC00003F = 0x00000024 → decode w = .ok (.and (.ofField (w.extractLsb' 11 5)) (.ofField (w.extractLsb' 21 5)) (.ofField (w.extractLsb' 16 5)))) ∧
  (w &&& 0xFC00003F = 0x00000025 → decode w = .ok (.or (.ofField (w.extractLsb' 11 5)) (.ofField (w.extractLsb' 21 5)) (.ofField (w.extractLsb' 16 5)))) ∧
  (w &&& 0xFC00003F = 0x00000026 → decode w = .ok (.xor (.ofField (w.extractLsb' 11 5)) (.ofField (w.extractLsb' 21 5)) (.ofField (w.extractLsb' 16 5)))) ∧
  (w &&& 0xFC00003F = 0x00000027 → decode w = .ok (.nor (.ofField (w.extractLsb' 11 5)) (.ofField (w.extractLsb' 21 5)) (.ofField (w.extractLsb' 16 5)))) ∧
  (w &&& 0xFC00003F = 0x0000002A → decode w = .ok (.slt (.ofField (w.extractLsb' 11 5)) (.ofField (w.extractLsb' 21 5)) (.ofField (w.extractLsb' 16 5)))) ∧
  (w &&& 0xFC00003F = 0x00000010 → decode w = .ok (.mfhi (.ofField (w.extractLsb' 11 5)))) ∧
  (w &&& 0xFC00003F = 0x00000012 → decode w = .ok (.mflo (.ofField (w.extractLsb' 11 5)))) ∧
  (w &&& 0xFC00003F = 0x00000018 → decode w = .ok (.mult (.ofField (w.extractLsb' 21 5)) (.ofField (w.extractLsb' 16 5)))) ∧
  (w &&& 0xFC00003F = 0x00000019 → decode w = .ok (.multu (.ofField (w.extractLsb' 21 5)) (.ofField (w.extractLsb' 16 5)))) ∧
  (w &&& 0xFC00003F = 0x0000001A → decode w = .ok (.div (.ofField (w.extractLsb' 21 5)) (.ofField (w.extractLsb' 16 5)))) ∧
  (w &&& 0xFC00003F = 0x0000001B → decode w = .ok (.divu (.ofField (w.extractLsb' 21 5)) (.ofField (w.extractLsb' 16 5)))) ∧
  (w &&& 0xFC00003F = 0x00000000 → decode w = .ok (.sll (.ofField (w.extractLsb' 11 5)) (.ofField (w.extractLsb' 16 5)) (w.extractLsb' 6 5))) ∧
  (w &&& 0xFC00003F = 0x00000002 → decode w = .ok (.srl (.ofField (w.extractLsb' 11 5)) (.ofField (w.extractLsb' 16 5)) (w.extractLsb' 6 5))) ∧
  (w &&& 0xFC00003F = 0x00000003 → decode w = .ok (.sra (.ofField (w.extractLsb' 11 5)) (.ofField (w.extractLsb' 16 5)) (w.extractLsb' 6 5))) ∧
  (w &&& 0xFC00003F = 0x00000004 → decode w = .ok (.sllv (.ofField (w.extractLsb' 11 5)) (.ofField (w.extractLsb' 16 5)) (.ofField (w.extractLsb' 21 5)))) ∧
  (w &&& 0xFC00003F = 0x00000006 → decode w = .ok (.srlv (.ofField (w.extractLsb' 11 5)) (.ofField (w.extractLsb' 16 5)) (.ofField (w.extractLsb' 21 5)))) ∧
  (w &&& 0xFC00003F = 0x00000007 → decode w = .ok (.srav (.ofField (w.extractLsb' 11 5)) (.ofField (w.extractLsb' 16 5)) (.ofField (w.extractLsb' 21 5)))) ∧
  (w &&& 0xFC000000 = 0x20000000 → decode w = .ok (.addi (.ofField (w.extractLsb' 16 5)) (.ofField (w.extractLsb' 21 5)) (w.extractLsb' 0 16))) ∧
  (w &&& 0xFC000000 = 0x24000000 → decode w = .ok (.addiu (.ofField (w.extractLsb' 16 5)) (.ofField (w.extractLsb' 21 5)) (w.extractLsb' 0 16))) ∧
  (w &&& 0xFC000000 = 0x28000000 → decode w = .ok (.slti (.ofField (w.extractLsb' 16 5)) (.ofField (w.extractLsb' 21 5)) (w.extractLsb' 0 16))) ∧
  (w &&& 0xFC000000 = 0x30000000 → decode w = .ok (.andi (.ofField (w.extractLsb' 16 5)) (.ofField (w.extractLsb' 21 5)) (w.extractLsb' 0 16))) ∧
  (w &&& 0xFC000000 = 0x34000000 → decode w = .ok (.ori (.ofField (w.extractLsb' 16 5)) (.ofField (w.extractLsb' 21 5)) (w.extractLsb' 0 16))) ∧
  (w &&& 0xFC000000 = 0x38000000 → decode w = .ok (.xori (.ofField (w.extractLsb' 16 5)) (.ofField (w.extractLsb' 21 5)) (w.extractLsb' 0 16))) ∧
  (w &&& 0xFC000000 = 0x8C000000 → decode w = .ok (.lw (.ofField (w.extractLsb' 21 5)) (.ofField (w.extractLsb' 16 5)) (w.extractLsb' 0 16))) ∧
  (w &&& 0xFC000000 = 0xAC000000 → decode w = .ok (.sw (.ofField (w.extractLsb' 21 5)) (.ofField (w.extractLsb' 16 5)) (w.extractLsb' 0 16))) ∧
  (w &&& 0xFC000000 = 0x80000000 → decode w = .ok (.lb (.ofField (w.extractLsb' 21 5)) (.ofField (w.extractLsb' 16 5)) (w.extractLsb' 0 16))) ∧
  (w &&& 0xFC000000 = 0x90000000 → decode w = .ok (.lbu (.ofField (w.extractLsb' 21 5)) (.ofField (w.extractLsb' 16 5)) (w.extractLsb' 0 16))) ∧
  (w &&& 0xFC000000 = 0xA0000000 → decode w = .ok (.sb (.ofField (w.extractLsb' 21 5)) (.ofField (w.extractLsb' 16 5)) (w.extractLsb' 0 16))) ∧
  (w &&& 0xFC00003F = 0x00000008 → decode w = .ok (.jr (.ofField (w.extractLsb' 21 5)))) ∧
  (w &&& 0xFC000000 = 0x08000000 → decode w = .ok (.j (w.extractLsb' 0 26))) ∧
  (w &&& 0xFC000000 = 0x0C000000 → decode w = .ok (.jal (w.extractLsb' 0 26))) ∧
  (w &&& 0xFC000000 = 0x10000000 → decode w = .ok (.beq (.ofField (w.extractLsb' 21 5)) (.ofField (w.extractLsb' 16 5)) (w.extractLsb' 0 16))) ∧
  (w &&& 0xFC000000 = 0x14000000 → decode w = .ok (.bne (.ofField (w.extractLsb' 21 5)) (.ofField (w.extractLsb' 16 5)) (w.extractLsb' 0 16))) ∧
  (w &&& 0xFC000000 = 0x04000000 → decode w = .ok (.bltz (.ofField (w.extractLsb' 21 5)) (w.extractLsb' 0 16)))

/-- spec/30_encoding.md R77: a word is illegal exactly when its opcode is zero and its function value is one of
42, or its opcode is one of 47; the refusal names the field. The tables are the spec's decisions D5, D6. -/
def Obligations.DecodeRefusesExactlyTheIllegalWords : Prop :=
  ∀ w : Word,
    (decode w = .error (.unknownFunct (w.extractLsb' 0 6)) ↔
      w.extractLsb' 26 6 = 0#6 ∧ (w.extractLsb' 0 6).toNat ∈ [
      0x01, 0x05, 0x09, 0x0A, 0x0B, 0x0C, 0x0D, 0x0E, 0x0F, 0x11, 0x13, 0x14, 0x15, 0x16, 0x17,
      0x1C, 0x1D, 0x1E, 0x1F, 0x28, 0x29, 0x2B, 0x2C, 0x2D, 0x2E, 0x2F, 0x30, 0x31, 0x32, 0x33,
      0x34, 0x35, 0x36, 0x37, 0x38, 0x39, 0x3A, 0x3B, 0x3C, 0x3D, 0x3E, 0x3F]) ∧
    (decode w = .error (.unknownOpcode (w.extractLsb' 26 6)) ↔
      (w.extractLsb' 26 6).toNat ∈ [
      0x06, 0x07, 0x0B, 0x0F, 0x10, 0x11, 0x12, 0x13, 0x14, 0x15, 0x16, 0x17, 0x18, 0x19, 0x1A,
      0x1B, 0x1C, 0x1D, 0x1E, 0x1F, 0x21, 0x22, 0x25, 0x26, 0x27, 0x29, 0x2A, 0x2C, 0x2D, 0x2E,
      0x2F, 0x30, 0x31, 0x32, 0x33, 0x34, 0x35, 0x36, 0x37, 0x38, 0x39, 0x3A, 0x3B, 0x3C, 0x3D,
      0x3E, 0x3F]) ∧
    (∀ e, decode w = .error e →
      e = .unknownFunct (w.extractLsb' 0 6) ∨ e = .unknownOpcode (w.extractLsb' 26 6))

/-- Decode and encode agree: for every record a decoder can make, with every operand at every value, decoding
its encoding gives it back. Rests on the spec's numeric codes (D5) and field positions (D7, D15). -/
def Obligations.DecodeEncodeRoundTrip : Prop :=
  ∀ i : Instr, i.wf = true → decode (encode i) = .ok i

/-- The other direction: encoding the record of a word gives the word back with its ignored bits zero, so the
record keeps every bit that spec/30_encoding.md R72 does not ignore (ignored bits: D26). -/
def Obligations.EncodeRebuildsTheKeptBits : Prop :=
  ∀ (w : Word) (i : Instr), decode w = .ok i → encode i = w &&& i.keptBits

/-- Bits that are no field of the selected record shape are ignored (spec/30_encoding.md R72; the spec's
decision D26): two words that differ only there decode to equal records. -/
def Obligations.IgnoredBitsChangeNothing : Prop :=
  ∀ (w w' : Word) (i : Instr), decode w = .ok i → w' &&& i.keptBits = w &&& i.keptBits →
    decode w' = .ok i

/-- spec/30_encoding.md R68 with spec/10_state.md R15: the decoder never makes an explicit reference to register
0, in any field of any shape; the words decoded are those of the spec's tables (D5, D6). -/
def Obligations.DecodedRecordsNeverNameRegisterZero : Prop :=
  ∀ (w : Word) (i : Instr), decode w = .ok i → i.wf = true

/-- spec/30_encoding.md R64: the immediate arithmetic and logic shape takes its source from w[25:21], its
destination from w[20:16] and its immediate from w[15:0]. -/
def Obligations.ImmediateArithmeticFields : Prop :=
  ∀ (w : Word) (rt rs : Operand) (imm : BitVec 16),
    (decode w = .ok (.addi rt rs imm) ∨
     decode w = .ok (.addiu rt rs imm) ∨
     decode w = .ok (.slti rt rs imm) ∨
     decode w = .ok (.andi rt rs imm) ∨
     decode w = .ok (.ori rt rs imm) ∨
     decode w = .ok (.xori rt rs imm)) →
    rs = .ofField (w.extractLsb' 21 5) ∧ rt = .ofField (w.extractLsb' 16 5) ∧
      imm = w.extractLsb' 0 16

/-- spec/30_encoding.md R71: the shift amount of sll, srl, sra is w[10:6]; for every other register-type
instruction these bits are ignored. -/
def Obligations.ShiftAmountField : Prop :=
  (∀ (w : Word) (rd rt : Operand) (shamt : BitVec 5),
    (decode w = .ok (.sll rd rt shamt) ∨ decode w = .ok (.srl rd rt shamt) ∨
     decode w = .ok (.sra rd rt shamt)) →
    shamt = w.extractLsb' 6 5 ∧ shamt.toNat ≤ 31) ∧
  (∀ (w w' : Word) (i : Instr), w.extractLsb' 26 6 = 0#6 → decode w = .ok i →
    (∀ rd rt shamt, i ≠ .sll rd rt shamt ∧ i ≠ .srl rd rt shamt ∧ i ≠ .sra rd rt shamt) →
    w' &&& 0xFFFFF83F = w &&& 0xFFFFF83F → decode w' = .ok i)

/-- spec/00_scope.md R8, the spec's decision D1: wrap32(z) is the value of -2^31 .. 2^31 - 1 congruent to z modulo
2^32. -/
def Obligations.WrapIsTheCongruentInt32 : Prop :=
  ∀ z : Int, (wrap32 z).toInt % 2 ^ 32 = z % 2 ^ 32 ∧
    -(2 ^ 31) ≤ (wrap32 z).toInt ∧ (wrap32 z).toInt < 2 ^ 31

/-- spec/00_scope.md R9; an absent source reads 0 (the spec's decision D2, spec/10_state.md R19), an absent
destination receives nothing (D3, R20), any other field names its register. -/
def Obligations.OperandsReadAndWrite : Prop :=
  ∀ (s : State) (f : BitVec 5) (v : Word),
    s.src (.ofField f) = (if f = 0 then 0 else s.reg ⟨f.toNat, f.isLt⟩) ∧
    (f = 0 → s.dst (.ofField f) v = s) ∧
    (f ≠ 0 → (∀ r : RegCode, (s.dst (.ofField f) v).reg r = if r.val = f.toNat then v else s.reg r) ∧
      AccKept s (s.dst (.ofField f) v) ∧ CellsKept s (s.dst (.ofField f) v) ∧
      HostKept s (s.dst (.ofField f) v) ∧ (s.dst (.ofField f) v).pc = s.pc ∧
      (s.dst (.ofField f) v).status = s.status)

/-- spec/20_memory.md R41: MemRead answers the data word of an in-range data cell, raises MemoryFault outside the
memory (negative indices: the spec's decision D19) and InstrCellRead on an instruction cell (D18). -/
def Obligations.LoadAccess : Prop :=
  ∀ (s : State) (a : Int),
    ((a < 0 ∨ (s.config.memWords : Int) ≤ a) → s.memRead a = .error (.memoryFault a)) ∧
    (∀ k : Nat, k < s.config.memWords → (k : Int) = a → ∀ v, s.cell k = .data v →
      s.memRead a = .ok v) ∧
    (∀ k : Nat, k < s.config.memWords → (k : Int) = a → ∀ i, s.cell k = .instr i →
      s.memRead a = .error (.instrCellRead a))

/-- spec/20_memory.md R42: MemWrite makes an in-range cell Data(v) whatever it held and touches no other cell;
outside the memory it raises MemoryFault (negative indices: the spec's decision D19). The canonical form of the
memory list is the model's (log entry 3). -/
def Obligations.StoreAccess : Prop :=
  ∀ (s : State) (a : Int) (v : Word), s.mem.wf = true →
    ((a < 0 ∨ (s.config.memWords : Int) ≤ a) → s.memWrite a v = .error (.memoryFault a)) ∧
    (0 ≤ a → a < s.config.memWords → ∃ t, s.memWrite a v = .ok t ∧ CellGets s t a v ∧
      t.mem.wf = true ∧ RegsKept s t ∧ AccKept s t ∧ HostKept s t ∧ t.pc = s.pc ∧
      t.status = s.status)

/-- spec/45_load_store.md R137: the byte is pat(v) div 2^24, and sext_8 reads it as a signed 8-bit value. That sb uses
the same byte is the spec's decision D17. -/
def Obligations.ByteAsWordIsTheSignedTopByte : Prop :=
  ∀ v : Word, (byteAsWord v).toInt =
    if v.toNat / 2 ^ 24 < 128 then ((v.toNat / 2 ^ 24 : Nat) : Int)
    else ((v.toNat / 2 ^ 24 : Nat) : Int) - 256

/-- spec/10_state.md R32, spec/70_reset_and_hazards.md R175, for every value of the parameters: registers, HI, LO and
every cell zero; `lp` 0 and `pc` 0 are the spec's decision D20, status Running its decision D25. State.reset
itself takes the defaults of the parameters (log entry 1). -/
def Obligations.ResetLeavesEverythingZero : Prop :=
  State.reset = State.construct Config.standard ∧
  ∀ c : Config,
    (∀ r, (State.construct c).reg r = 0) ∧ (State.construct c).hi = 0 ∧ (State.construct c).lo = 0 ∧
    (∀ a, (State.construct c).cell a = .data 0) ∧ (State.construct c).lp = 0 ∧
    (State.construct c).pc = 0 ∧ (State.construct c).status = .running ∧
    (State.construct c).config = c

/-- spec/40_execution_cycle.md R83: a running machine whose pc is at an instruction cell performs that record's
operation, and nothing is added around it (the advance is inside the meaning). The second clause is the same for
a word placed at pc (log entry 7). -/
def Obligations.StepRunsTheFetchedInstruction : Prop :=
  (∀ (s : State) (i : Instr), s.status = .running → 0 ≤ s.pc → s.pc < s.config.memWords →
    s.cell s.pc.toNat = .instr i → step s = exec i s) ∧
  (∀ (s : State) (w : Word) (i : Instr), s.mem.wf = true → 0 ≤ s.pc → s.pc < s.config.memWords →
    decode w = .ok i →
    (s.withFetchWord 32 w.toNat).cell s.pc.toNat = .instr i ∧
    step (s.withFetchWord 32 w.toNat) = exec i (s.withFetchWord 32 w.toNat))

/-- spec/40_execution_cycle.md R84 with spec/20_memory.md R40: a fetch with pc outside the memory ends the run with
MemoryFault and changes nothing else. Negative pc: the spec's decision D19; pc kept: D25; the fault as a next
state: log entry 2. -/
def Obligations.FetchOutOfRangeFaults : Prop :=
  ∀ s : State, s.status = .running → (s.pc < 0 ∨ (s.config.memWords : Int) ≤ s.pc) →
    ∃ t, step s = .next t ∧ EndsWith s t (.faulted .memoryFault)

/-- spec/40_execution_cycle.md R85: a data cell at pc, zero or not, halts the run and changes nothing else, and this is
the only way to halt. That pc stays at the data cell is also the spec's decision D25; the status as state: log
entry 2. -/
def Obligations.DataCellHaltsTheRun : Prop :=
  (∀ (s : State) (v : Word), s.status = .running → 0 ≤ s.pc → s.pc < s.config.memWords →
    s.cell s.pc.toNat = .data v → ∃ t, step s = .next t ∧ EndsWith s t .halted) ∧
  (∀ s t : State, step s = .next t → t.status = .halted →
    s.status = .running ∧ 0 ≤ s.pc ∧ s.pc < s.config.memWords ∧
      ∃ v, s.cell s.pc.toNat = .data v)

/-- From Halted and from Faulted(kind) no step is taken (spec/40_execution_cycle.md R89). A running machine always
takes one (R83); that this step answers a next state also where it faults or halts is the model's choice (log
entry 2). -/
def Obligations.TerminalStatesTakeNoStep : Prop :=
  ∀ s : State, (∃ t, step s = .next t) ↔ s.status = .running

/-- spec/40_execution_cycle.md R87 and spec/10_state.md R24: every instruction that completes ends with pc one
beyond the value its operation leaves: pc0 + 1 for all but control transfers, pc0 + imm + 1 for a taken branch,
target + 1 for j and jal, src(rs) + 1 for jr. -/
def Obligations.UniformAdvance : Prop :=
  ∀ (i : Instr) (s t : State), exec i s = .next t → s.status = .running → t.status = .running →
    t.pc = match i with
      | .jr rs => (s.src rs).toInt + 1
      | .j target => (target.toNat : Int) + 1
      | .jal target => (target.toNat : Int) + 1
      | .beq rs rt imm => if s.src rs = s.src rt then s.pc + imm.toNat + 1 else s.pc + 1
      | .bne rs rt imm => if s.src rs = s.src rt then s.pc + 1 else s.pc + imm.toNat + 1
      | .bltz rs imm => if (s.src rs).toInt < 0 then s.pc + imm.toNat + 1 else s.pc + 1
      | _ => s.pc + 1

/-- Every step keeps the machine's invariant: parameters in range (spec/00_scope.md R6), memory canonical (log entry
3), register 0 zero (spec/10_state.md R15), lp within the memory, nothing outside `0 .. MEM_WORDS-1`, instruction
cells below lp and well formed (spec/20_memory.md R38), pc within the range of spec/46_control_transfer.md R148.
Rests on the spec's decisions D3, D4, D19, D21, D22. -/
def Obligations.StepKeepsTheInvariant : Prop :=
  ∀ s t : State, s.Inv → step s = .next t → t.Inv

/-- The invariant holds after construction with any parameters in range (spec/10_state.md R32; pc and lp 0 are the
spec's decision D20), and so at State.reset. -/
def Obligations.ResetMeetsTheInvariant : Prop :=
  (∀ c : Config, c.wf = true → (State.construct c).Inv) ∧ State.reset.Inv

/-- The host's load and start keep the invariant (spec/70_reset_and_hazards.md R172, R173; spec/20_memory.md R38, R43;
the spec's decisions D23, D34), so it holds of every state a run can begin in. -/
def Obligations.LoadKeepsTheInvariant : Prop :=
  ∀ (s : State) (ws : List Word), s.Inv → (s.loadProgram ws).Inv ∧ (s.loadProgram ws).start.Inv

/-- spec/10_state.md R15: no decodable instruction changes register 0 (an absent destination writes nothing: the spec's
decision D3; register 0 an ordinary cell: D4). -/
def Obligations.RegisterZeroIsNeverWritten : Prop :=
  ∀ (i : Instr) (s t : State), i.wf = true → exec i s = .next t → t.reg 0 = s.reg 0

/-- spec/10_state.md R31: instruction records are created only while loading and never mutated: after a step a cell is
what it was, or a data word. -/
def Obligations.RecordsAreNeverMadeOrEdited : Prop :=
  ∀ s t : State, s.mem.wf = true → step s = .next t →
    (∀ a, t.cell a = s.cell a ∨ ∃ v, t.cell a = .data v) ∧
    (∀ a i, t.cell a = .instr i → s.cell a = .instr i)

/-- spec/10_state.md R22: HI and LO are written only by mult, multu, div, divu (both, every time, so their old values
do not matter), read only by mfhi and mflo, and not shown in the snapshot: for every other instruction, other
values of HI and LO change nothing else. -/
def Obligations.AccumulatorsBelongToMulDivAndMoves : Prop :=
  (∀ (i : Instr) (s t : State), exec i s = .next t → familyOf i ≠ .mulDiv → AccKept s t) ∧
  (∀ (i : Instr) (s : State) (h l : Word), familyOf i = .mulDiv →
    exec i (s.setHiLo h l) = exec i s) ∧
  (∀ (i : Instr) (s t : State) (h l : Word), exec i s = .next t → familyOf i ≠ .mulDiv →
    familyOf i ≠ .accMove → exec i (s.setHiLo h l) = .next (t.setHiLo h l)) ∧
  (∀ (rd : Operand) (s : State),
    (∃ t, exec (.mfhi rd) s = .next t ∧ RegGets s t rd s.hi) ∧
    (∃ t, exec (.mflo rd) s = .next t ∧ RegGets s t rd s.lo)) ∧
  (∀ (s : State) (h l : Word), (s.setHiLo h l).observe = s.observe)

/-- spec/60_exceptions.md R155: whichever step faults, nothing but the status changes (pc kept: the spec's decision
D25; a fault as a next state: log entry 2). -/
def Obligations.FaultChangesOnlyTheStatus : Prop :=
  ∀ (s t : State) (k : FaultKind), step s = .next t → t.status = .faulted k →
    t = { s with status := .faulted k }

/-- What spec/60_exceptions.md R160 says is no fault (the values that wrap are in the statements of the results): a zero
divisor gives zeros, every instruction but loads and stores completes on all operands, absent ones too; a store in
range completes whatever the cell held, an instruction record too, and a load in range from a data cell; reaching
a data cell is the halt; no step raises a fault of another kind than a memory access does. Absent operands: the
spec's decisions D2, D3; `sb` roles: D16; the status as state: log entry 2. -/
def Obligations.ThingsThatAreNotFaults : Prop :=
  (∀ (s : State) (rs rt : Operand), s.src rt = 0 →
    (∃ t, exec (.div rs rt) s = .next t ∧ t.hi = 0 ∧ t.lo = 0 ∧ t.status = s.status) ∧
    (∃ t, exec (.divu rs rt) s = .next t ∧ t.hi = 0 ∧ t.lo = 0 ∧ t.status = s.status)) ∧
  (∀ (i : Instr) (s : State), familyOf i ≠ .load → familyOf i ≠ .store →
    ∃ t, exec i s = .next t ∧ t.status = s.status) ∧
  (∀ (s : State) (tgt base : Operand) (imm : BitVec 16),
    0 ≤ (s.src base).toInt + imm.toNat → (s.src base).toInt + imm.toNat < s.config.memWords →
    ∃ t, exec (.sw tgt base imm) s = .next t ∧ t.status = s.status) ∧
  (∀ (s : State) (tgt base : Operand) (imm : BitVec 16),
    0 ≤ (s.src (s.sbAddrOperand tgt base)).toInt + imm.toNat →
    (s.src (s.sbAddrOperand tgt base)).toInt + imm.toNat < s.config.memWords →
    ∃ t, exec (.sb tgt base imm) s = .next t ∧ t.status = s.status) ∧
  (∀ (s : State) (tgt base : Operand) (imm : BitVec 16) (v : Word) (i : Instr),
    i = .lw tgt base imm ∨ i = .lb tgt base imm ∨ i = .lbu tgt base imm →
    0 ≤ (s.src base).toInt + imm.toNat → (s.src base).toInt + imm.toNat < s.config.memWords →
    s.cell ((s.src base).toInt + imm.toNat).toNat = .data v →
    ∃ t, exec i s = .next t ∧ t.status = s.status) ∧
  (∀ (s : State) (v : Word), s.status = .running → 0 ≤ s.pc → s.pc < s.config.memWords →
    s.cell s.pc.toNat = .data v → ∃ t, step s = .next t ∧ t.status = .halted) ∧
  (∀ (s t : State) (k : FaultKind), step s = .next t → t.status = .faulted k →
    k = .memoryFault ∨ k = .instrCellRead)

/-- spec/20_memory.md R55: a memory instruction whose address check fails changes no memory cell and no register;
what earlier instructions did remains as left. The address register of sb is the spec's decision D16, negative
addresses its decision D19. -/
def Obligations.FailedAddressCheckChangesNothing : Prop :=
  ∀ (s : State) (tgt base : Operand) (imm : BitVec 16) (i : Instr) (a : Int),
    ((i = .lw tgt base imm ∨ i = .lb tgt base imm ∨ i = .lbu tgt base imm ∨ i = .sw tgt base imm) ∧
        a = (s.src base).toInt + imm.toNat ∨
      i = .sb tgt base imm ∧ a = (s.src (s.sbAddrOperand tgt base)).toInt + imm.toNat) →
    (a < 0 ∨ (s.config.memWords : Int) ≤ a) →
    ∃ t, exec i s = .next t ∧ RegsKept s t ∧ AccKept s t ∧ CellsKept s t

/-- spec/46_control_transfer.md R148: the reach of each transfer, none reduced modulo anything (pc unbounded: the
spec's decision D21; jr on an absent register: D2; all 26 target bits: D33). -/
def Obligations.PcAfterATransfer : Prop :=
  (∀ (s t : State) (i : Instr), familyOf i = .branch → exec i s = .next t →
    s.pc + 1 ≤ t.pc ∧ t.pc ≤ s.pc + 65536) ∧
  (∀ (s t : State) (target : BitVec 26),
    exec (.j target) s = .next t ∨ exec (.jal target) s = .next t → 1 ≤ t.pc ∧ t.pc ≤ 2 ^ 26) ∧
  (∀ (s t : State) (rs : Operand), exec (.jr rs) s = .next t →
    -(2 ^ 31) + 1 ≤ t.pc ∧ t.pc ≤ 2 ^ 31)

/-- spec/10_state.md R26 (no instruction writes lp) and spec/00_scope.md R6 (parameters are fixed; carried in State by
log entry 1). -/
def Obligations.StepKeepsLoadPointerAndParameters : Prop :=
  ∀ s t : State, step s = .next t → HostKept s t

/-- spec/70_reset_and_hazards.md R172, spec/20_memory.md R38, R43: after a complete load of n words, lp = n, cells 0 to
n-1 hold the decoded records in order, every other cell is Data(0), and registers, HI, LO and pc are as at reset
(pc and lp 0: the spec's decision D20; the order of decode and append: D34). -/
def Obligations.LoadedProgramFillsTheFirstCells : Prop :=
  ∀ (c : Config) (ws : List Word) (is : List Instr), ws.map decode = is.map Except.ok →
    ws.length ≤ c.memWords →
    ((State.construct c).loadProgram ws).status = .running ∧
    ((State.construct c).loadProgram ws).lp = ws.length ∧
    (∀ a, ((State.construct c).loadProgram ws).cell a =
      match is[a]? with
      | some i => .instr i
      | none => .data 0) ∧
    RegsKept (State.construct c) ((State.construct c).loadProgram ws) ∧
    AccKept (State.construct c) ((State.construct c).loadProgram ws) ∧
    ((State.construct c).loadProgram ws).pc = 0 ∧
    ((State.construct c).loadProgram ws).config = c

/-- spec/70_reset_and_hazards.md R172, spec/60_exceptions.md R156, spec/20_memory.md R43: an illegal word, or a word for
which no cell is left (the spec's decision D23), sets the fault, changes nothing else, and no further word is
taken. -/
def Obligations.FailedLoadEndsTheRun : Prop :=
  (∀ (s : State) (w : Word) (ws : List Word) (e : DecodeError), s.status = .running →
    decode w = .error e →
    EndsWith s (s.loadWord w) (.faulted .decodeError) ∧ s.loadProgram (w :: ws) = s.loadWord w) ∧
  (∀ (s : State) (w : Word) (ws : List Word) (i : Instr), s.status = .running → decode w = .ok i →
    s.config.memWords ≤ s.lp →
    EndsWith s (s.loadWord w) (.faulted .memoryFault) ∧ s.loadProgram (w :: ws) = s.loadWord w)

/-- spec/70_reset_and_hazards.md R174: the observable projection is the nonzero data cells and the 32 registers; their
order by index follows the canonical form of the memory (log entry 3). -/
def Obligations.ObservationShowsNonzeroDataCells : Prop :=
  ∀ s : State, s.mem.wf = true →
    (∀ a v, (a, v) ∈ s.observe.cells ↔ s.cell a = .data v ∧ v ≠ 0) ∧
    (s.observe.cells.map Prod.fst).Pairwise (· < ·) ∧
    (∀ r : RegCode, s.observe.regs[r.val] = s.reg r)

/-- spec/46_control_transfer.md R150: jal at cell c links c + 1, so a later jr on register 31 resumes at c + 2; the
parameter bound that keeps the link exact is the spec's decision D22. -/
def Obligations.CallThenReturnSkipsACell : Prop :=
  ∀ (s : State) (target : BitVec 26), s.config.wf = true → 0 ≤ s.pc → s.pc < s.config.memWords →
    ∃ t, exec (.jal target) s = .next t ∧ t.pc = target.toNat + 1 ∧ (t.reg 31).toInt = s.pc + 1 ∧
      ∀ u : State, u.reg 31 = t.reg 31 →
        ∃ v, exec (.jr (.reg 31)) u = .next v ∧ v.pc = s.pc + 2

/-- spec/41_arith_logic_compare.md R94, R95: the sum, and the first source minus the second (order: the spec's decision
D8), wrapped to 32 bits (D1); no flag, no fault; nothing but the destination and pc changes. -/
def Obligations.AddSubResults : Prop :=
  ∀ (s : State) (rd rs rt : Operand),
    (∃ t, exec (.add rd rs rt) s = .next t ∧ WritesReg s t rd (wrap32 ((s.src rs).toInt + (s.src rt).toInt))) ∧
    (∃ t, exec (.sub rd rs rt) s = .next t ∧ WritesReg s t rd (wrap32 ((s.src rs).toInt - (s.src rt).toInt)))

/-- spec/41_arith_logic_compare.md R96, R97: addu and subu compute on the absolute values of the sources (order of subu:
the spec's decision D8; wrapping: D1), abs(-2^31) being 2^31. -/
def Obligations.AbsoluteAddSubResults : Prop :=
  ∀ (s : State) (rd rs rt : Operand),
    (∃ t, exec (.addu rd rs rt) s = .next t ∧ WritesReg s t rd (wrap32 (((s.src rs).toInt.natAbs : Int) + ((s.src rt).toInt.natAbs : Int)))) ∧
    (∃ t, exec (.subu rd rs rt) s = .next t ∧ WritesReg s t rd (wrap32 (((s.src rs).toInt.natAbs : Int) - ((s.src rt).toInt.natAbs : Int))))

/-- spec/41_arith_logic_compare.md R98 to R101: and, or, xor, nor over the unsigned 32-bit patterns of the sources (two's
complement patterns: the spec's decision D1). -/
def Obligations.BitwiseResults : Prop :=
  ∀ (s : State) (rd rs rt : Operand),
    (∃ t v, exec (.and rd rs rt) s = .next t ∧ WritesReg s t rd v ∧
      v.toNat = (s.src rs).toNat &&& (s.src rt).toNat) ∧
    (∃ t v, exec (.or rd rs rt) s = .next t ∧ WritesReg s t rd v ∧
      v.toNat = (s.src rs).toNat ||| (s.src rt).toNat) ∧
    (∃ t v, exec (.xor rd rs rt) s = .next t ∧ WritesReg s t rd v ∧
      v.toNat = (s.src rs).toNat ^^^ (s.src rt).toNat) ∧
    (∃ t v, exec (.nor rd rs rt) s = .next t ∧ WritesReg s t rd v ∧
      v.toNat = 2 ^ 32 - 1 - ((s.src rs).toNat ||| (s.src rt).toNat))

/-- spec/41_arith_logic_compare.md R102: slt always writes 0, whatever the sources hold (rd absent: the spec's decision D3). -/
def Obligations.SltWritesZero : Prop :=
  ∀ (s : State) (rd rs rt : Operand), ∃ t, exec (.slt rd rs rt) s = .next t ∧ WritesReg s t rd 0

/-- spec/42_move_muldiv.md R106, R107: mfhi copies HI and mflo copies LO into rd (absent rd: the spec's decision D3). -/
def Obligations.AccumulatorMoveResults : Prop :=
  ∀ (s : State) (rd : Operand),
    (∃ t, exec (.mfhi rd) s = .next t ∧ WritesReg s t rd (s.hi)) ∧
    (∃ t, exec (.mflo rd) s = .next t ∧ WritesReg s t rd (s.lo))

/-- spec/42_move_muldiv.md R108, R113: HI (signed) times 2^32 plus the pattern of LO is the exact signed product (layout:
the spec's decision D11). -/
def Obligations.MultIsTheExactProduct : Prop :=
  ∀ (s : State) (rs rt : Operand), ∃ t h l, exec (.mult rs rt) s = .next t ∧ WritesAcc s t h l ∧
    h.toInt * 2 ^ 32 + l.toNat = (s.src rs).toInt * (s.src rt).toInt

/-- spec/42_move_muldiv.md R109, R113: as mult, with the absolute value of the signed product (layout: the spec's decision
D11). -/
def Obligations.MultuIsTheAbsoluteProduct : Prop :=
  ∀ (s : State) (rs rt : Operand), ∃ t h l, exec (.multu rs rt) s = .next t ∧ WritesAcc s t h l ∧
    h.toInt * 2 ^ 32 + l.toNat = (((s.src rs).toInt * (s.src rt).toInt).natAbs : Int)

/-- spec/42_move_muldiv.md R110, R112: a zero divisor gives 0 and 0; otherwise LO and HI are the wrapped quotient and
remainder with a = q * b + r and abs(r) < abs(b), the remainder taking the sign of the dividend when DIV_ROUND is
trunc and of the divisor when it is floor (the spec's decisions D12, D13). It holds for both settings. -/
def Obligations.DivQuotientAndRemainder : Prop :=
  ∀ (s : State) (rs rt : Operand),
    ((s.src rt).toInt = 0 → ∃ t, exec (.div rs rt) s = .next t ∧ WritesAcc s t 0 0) ∧
    ((s.src rt).toInt ≠ 0 → ∃ t q r, exec (.div rs rt) s = .next t ∧
      WritesAcc s t (wrap32 r) (wrap32 q) ∧
      (s.src rs).toInt = q * (s.src rt).toInt + r ∧ r.natAbs < (s.src rt).toInt.natAbs ∧
      (s.config.divRound = .trunc → r ≠ 0 → (0 < r ↔ 0 < (s.src rs).toInt)) ∧
      (s.config.divRound = .floor → r ≠ 0 → (0 < r ↔ 0 < (s.src rt).toInt)))

/-- spec/42_move_muldiv.md R111: divu divides the absolute values; a zero divisor gives 0 and 0 (wrapping of 2^31: the
spec's decision D1). -/
def Obligations.DivuQuotientAndRemainder : Prop :=
  ∀ (s : State) (rs rt : Operand),
    ((s.src rt).toInt = 0 → ∃ t, exec (.divu rs rt) s = .next t ∧ WritesAcc s t 0 0) ∧
    ((s.src rt).toInt ≠ 0 → ∃ t, ∃ q r : Nat, exec (.divu rs rt) s = .next t ∧
      WritesAcc s t (wrap32 r) (wrap32 q) ∧
      (s.src rs).toInt.natAbs = q * (s.src rt).toInt.natAbs + r ∧ r < (s.src rt).toInt.natAbs)

/-- spec/43_shifts.md R115, R118, R121: the pattern of src(rt) times 2^n modulo 2^32, n the shift amount field or
pat(src(rs)) mod 32 (which field is shifted: the spec's decision D8; the modulus: D9). -/
def Obligations.LeftShiftResults : Prop :=
  ∀ (s : State) (rd rt rs : Operand) (shamt : BitVec 5),
    (∃ t v, exec (.sll rd rt shamt) s = .next t ∧ WritesReg s t rd v ∧
      v.toNat = (s.src rt).toNat * 2 ^ shamt.toNat % 2 ^ 32) ∧
    (∃ t v, exec (.sllv rd rt rs) s = .next t ∧ WritesReg s t rd v ∧
      v.toNat = (s.src rt).toNat * 2 ^ ((s.src rs).toNat % 32) % 2 ^ 32)

/-- spec/43_shifts.md R116, R117, R119, R120, R121: all four right shifts are logical: the pattern of src(rt) divided by
2^n (which field is shifted: the spec's decision D8; the modulus: D9; logical on the pattern: D10). -/
def Obligations.RightShiftResults : Prop :=
  ∀ (s : State) (rd rt rs : Operand) (shamt : BitVec 5),
    (∃ t v, exec (.srl rd rt shamt) s = .next t ∧ WritesReg s t rd v ∧
      v.toNat = (s.src rt).toNat / 2 ^ shamt.toNat) ∧
    (∃ t v, exec (.sra rd rt shamt) s = .next t ∧ WritesReg s t rd v ∧
      v.toNat = (s.src rt).toNat / 2 ^ shamt.toNat) ∧
    (∃ t v, exec (.srlv rd rt rs) s = .next t ∧ WritesReg s t rd v ∧
      v.toNat = (s.src rt).toNat / 2 ^ ((s.src rs).toNat % 32)) ∧
    (∃ t v, exec (.srav rd rt rs) s = .next t ∧ WritesReg s t rd v ∧
      v.toNat = (s.src rt).toNat / 2 ^ ((s.src rs).toNat % 32))

/-- spec/44_immediate.md R124, R125: addi adds the unsigned immediate to the source, addiu to its absolute value, wrapped
(the spec's decision D1). -/
def Obligations.AddImmediateResults : Prop :=
  ∀ (s : State) (rt rs : Operand) (imm : BitVec 16),
    (∃ t, exec (.addi rt rs imm) s = .next t ∧ WritesReg s t rt (wrap32 ((s.src rs).toInt + (imm.toNat : Int)))) ∧
    (∃ t, exec (.addiu rt rs imm) s = .next t ∧ WritesReg s t rt (wrap32 (((s.src rs).toInt.natAbs : Int) + (imm.toNat : Int))))

/-- spec/44_immediate.md R126: 1 when the signed source is below the unsigned immediate, else 0 (signed comparison: the
spec's decision D30). -/
def Obligations.SltiCompares : Prop :=
  ∀ (s : State) (rt rs : Operand) (imm : BitVec 16),
    (∃ t, exec (.slti rt rs imm) s = .next t ∧ WritesReg s t rt (if (s.src rs).toInt < (imm.toNat : Int) then 1 else 0))

/-- spec/44_immediate.md R127 to R129: andi, ori, xori of the source pattern and the zero-extended immediate (patterns:
the spec's decision D1). -/
def Obligations.LogicImmediateResults : Prop :=
  ∀ (s : State) (rt rs : Operand) (imm : BitVec 16),
    (∃ t v, exec (.andi rt rs imm) s = .next t ∧ WritesReg s t rt v ∧
      v.toNat = (s.src rs).toNat &&& imm.toNat) ∧
    (∃ t v, exec (.ori rt rs imm) s = .next t ∧ WritesReg s t rt v ∧
      v.toNat = (s.src rs).toNat ||| imm.toNat) ∧
    (∃ t v, exec (.xori rt rs imm) s = .next t ∧ WritesReg s t rt v ∧
      v.toNat = (s.src rs).toNat ^^^ imm.toNat)

/-- spec/45_load_store.md R132: lw reads the data word at src(base) + imm into tgt (roles of the fields: the spec's
decision D15; absent tgt: D3). -/
def Obligations.LoadWordResult : Prop :=
  ∀ (s : State) (tgt base : Operand) (imm : BitVec 16) (v : Word),
    0 ≤ (s.src base).toInt + imm.toNat → (s.src base).toInt + imm.toNat < s.config.memWords →
    s.cell ((s.src base).toInt + imm.toNat).toNat = .data v →
    ∃ t, exec (.lw tgt base imm) s = .next t ∧ WritesReg s t tgt v

/-- spec/45_load_store.md R134, R135: lb and lbu both write the sign-extended top byte of the word (lbu as lb: the spec's
decision D14; roles of the fields: D15). -/
def Obligations.LoadByteResults : Prop :=
  ∀ (s : State) (tgt base : Operand) (imm : BitVec 16) (v : Word),
    0 ≤ (s.src base).toInt + imm.toNat → (s.src base).toInt + imm.toNat < s.config.memWords →
    s.cell ((s.src base).toInt + imm.toNat).toNat = .data v →
    (∃ t, exec (.lb tgt base imm) s = .next t ∧ WritesReg s t tgt (byteAsWord v)) ∧
    (∃ t, exec (.lbu tgt base imm) s = .next t ∧ WritesReg s t tgt (byteAsWord v))

/-- spec/45_load_store.md R133: sw stores src(tgt) to the cell src(base) + imm, whatever that cell held (roles of the
fields: the spec's decision D15; absent tgt stores 0: D2). The canonical memory is the model's (log entry 3). -/
def Obligations.StoreWordResult : Prop :=
  ∀ (s : State) (tgt base : Operand) (imm : BitVec 16), s.mem.wf = true →
    0 ≤ (s.src base).toInt + imm.toNat → (s.src base).toInt + imm.toNat < s.config.memWords →
    ∃ t, exec (.sw tgt base imm) s = .next t ∧ StoresCell s t ((s.src base).toInt + imm.toNat) (s.src tgt)

/-- spec/45_load_store.md R136, for both values of SB_SWAPPED: with true the address register is tgt and the data register
base, with false the reverse (the spec's decision D16); the stored word is the sign-extended top byte (D17). -/
def Obligations.StoreByteResult : Prop :=
  ∀ (s : State) (tgt base : Operand) (imm : BitVec 16), s.mem.wf = true →
    (s.config.sbSwapped = true → 0 ≤ (s.src tgt).toInt + imm.toNat →
      (s.src tgt).toInt + imm.toNat < s.config.memWords →
      ∃ t, exec (.sb tgt base imm) s = .next t ∧
        StoresCell s t ((s.src tgt).toInt + imm.toNat) (byteAsWord (s.src base))) ∧
    (s.config.sbSwapped = false → 0 ≤ (s.src base).toInt + imm.toNat →
      (s.src base).toInt + imm.toNat < s.config.memWords →
      ∃ t, exec (.sb tgt base imm) s = .next t ∧
        StoresCell s t ((s.src base).toInt + imm.toNat) (byteAsWord (s.src tgt)))

/-- spec/45_load_store.md R131, R138: a load outside the memory ends with MemoryFault (negative indices: the spec's decision
D19), one from an instruction cell with InstrCellRead (D18), and changes nothing else (D25; log entry 2). -/
def Obligations.LoadFaults : Prop :=
  ∀ (s : State) (tgt base : Operand) (imm : BitVec 16) (i : Instr),
    i = .lw tgt base imm ∨ i = .lb tgt base imm ∨ i = .lbu tgt base imm →
    (((s.src base).toInt + imm.toNat < 0 ∨ (s.config.memWords : Int) ≤ (s.src base).toInt + imm.toNat) →
      ∃ t, exec i s = .next t ∧ EndsWith s t (.faulted .memoryFault)) ∧
    (0 ≤ (s.src base).toInt + imm.toNat → (s.src base).toInt + imm.toNat < s.config.memWords →
      (∃ k, s.cell ((s.src base).toInt + imm.toNat).toNat = .instr k) →
      ∃ t, exec i s = .next t ∧ EndsWith s t (.faulted .instrCellRead))

/-- spec/45_load_store.md R131, R133, R136: a store outside the memory ends with MemoryFault and changes nothing else
(negative indices: the spec's decision D19; pc kept: D25; roles of sb: D16; log entry 2). -/
def Obligations.StoreFaults : Prop :=
  ∀ (s : State) (tgt base : Operand) (imm : BitVec 16),
    (((s.src base).toInt + imm.toNat < 0 ∨ (s.config.memWords : Int) ≤ (s.src base).toInt + imm.toNat) →
      ∃ t, exec (.sw tgt base imm) s = .next t ∧ EndsWith s t (.faulted .memoryFault)) ∧
    (∀ o : Operand, o = (if s.config.sbSwapped then tgt else base) →
      ((s.src o).toInt + imm.toNat < 0 ∨ (s.config.memWords : Int) ≤ (s.src o).toInt + imm.toNat) →
      ∃ t, exec (.sb tgt base imm) s = .next t ∧ EndsWith s t (.faulted .memoryFault))

/-- spec/46_control_transfer.md R142, R143: jr lands on src(rs) + 1 (absent rs reads 0: the spec's decision D2), j on
target + 1 (all 26 bits: D33), and nothing else changes. -/
def Obligations.JumpResults : Prop :=
  ∀ (s : State) (rs : Operand) (target : BitVec 26),
    (∃ t, exec (.jr rs) s = .next t ∧ GoesTo s t ((s.src rs).toInt + 1)) ∧
    (∃ t, exec (.j target) s = .next t ∧ GoesTo s t (target.toNat + 1))

/-- spec/46_control_transfer.md R144: jal writes pc0 + 1 into register 31 and lands on target + 1 (all 26 bits: the spec's
decision D33; the link narrowed to 32 bits: D1). -/
def Obligations.JumpAndLinkResult : Prop :=
  ∀ (s : State) (target : BitVec 26), ∃ t, exec (.jal target) s = .next t ∧
    RegGets s t (.reg 31) (wrap32 (s.pc + 1)) ∧ AccKept s t ∧ CellsKept s t ∧ HostKept s t ∧
    t.status = s.status ∧ t.pc = target.toNat + 1

/-- spec/46_control_transfer.md R145, R146: beq goes to pc0 + imm + 1 when the sources are equal, bne when they differ, else
to pc0 + 1; an absent operand compares as 0 (the spec's decision D2). -/
def Obligations.EqualityBranchResults : Prop :=
  ∀ (s : State) (rs rt : Operand) (imm : BitVec 16),
    (∃ t, exec (.beq rs rt imm) s = .next t ∧
      GoesTo s t (if (s.src rs).toInt = (s.src rt).toInt then s.pc + imm.toNat + 1 else s.pc + 1)) ∧
    (∃ t, exec (.bne rs rt imm) s = .next t ∧
      GoesTo s t (if (s.src rs).toInt ≠ (s.src rt).toInt then s.pc + imm.toNat + 1 else s.pc + 1))

/-- spec/46_control_transfer.md R147: bltz goes to pc0 + imm + 1 when its source is negative, else to pc0 + 1; an absent
source is 0, so it is never taken (the spec's decision D2). -/
def Obligations.NegativeBranchResult : Prop :=
  ∀ (s : State) (rs : Operand) (imm : BitVec 16),
    ∃ t, exec (.bltz rs imm) s = .next t ∧
      GoesTo s t (if (s.src rs).toInt < 0 then s.pc + imm.toNat + 1 else s.pc + 1)
end

