-- ==== Sys2Proof/Laws/Decode.lean ====
section
/-! SUPPORT. Fields of encoded words, words rebuilt from their fields, and operands as fields. -/

namespace Sys2Proof

/-! ### Operands and fields -/

/-- An operand a decoder can make is read back from its field. -/
theorem ofField_field {o : Operand} (h : o.wf = true) : Operand.ofField o.field = o := by
  cases o with
  | absent => rfl
  | reg r => revert r; decide

/-- A field is read back from its operand. -/
@[simp] theorem field_ofField (f : BitVec 5) : (Operand.ofField f).field = f := by
  revert f; decide

/-- The decoder makes only well-formed operands (spec/30_encoding.md R68). -/
@[simp] theorem ofField_wf (f : BitVec 5) : (Operand.ofField f).wf = true := by
  revert f; decide

@[simp] theorem opA_wf (w : Word) : (opA w).wf = true := ofField_wf _
@[simp] theorem opB_wf (w : Word) : (opB w).wf = true := ofField_wf _
@[simp] theorem opD_wf (w : Word) : (opD w).wf = true := ofField_wf _
@[simp] theorem opA_field (w : Word) : (opA w).field = fieldA w := field_ofField _
@[simp] theorem opB_field (w : Word) : (opB w).field = fieldB w := field_ofField _
@[simp] theorem opD_field (w : Word) : (opD w).field = fieldD w := field_ofField _

/-! ### Fields of encoded words -/

section
variable (a b d h : BitVec 5) (fn op : BitVec 6) (imm : BitVec 16) (target : BitVec 26)

@[simp] theorem opcodeField_rWord : opcodeField (rWord a b d h fn) = 0 := by
  apply BitVec.eq_of_getLsbD_eq
  intro i hi
  simp only [opcodeField, rWord, BitVec.getLsbD_extractLsb', BitVec.getLsbD_append]
  interval_cases i <;> simp

@[simp] theorem fieldA_rWord : fieldA (rWord a b d h fn) = a := by
  apply BitVec.eq_of_getLsbD_eq
  intro i hi
  simp only [fieldA, rWord, BitVec.getLsbD_extractLsb', BitVec.getLsbD_append]
  interval_cases i <;> simp

@[simp] theorem fieldB_rWord : fieldB (rWord a b d h fn) = b := by
  apply BitVec.eq_of_getLsbD_eq
  intro i hi
  simp only [fieldB, rWord, BitVec.getLsbD_extractLsb', BitVec.getLsbD_append]
  interval_cases i <;> simp

@[simp] theorem fieldD_rWord : fieldD (rWord a b d h fn) = d := by
  apply BitVec.eq_of_getLsbD_eq
  intro i hi
  simp only [fieldD, rWord, BitVec.getLsbD_extractLsb', BitVec.getLsbD_append]
  interval_cases i <;> simp

@[simp] theorem shamtField_rWord : shamtField (rWord a b d h fn) = h := by
  apply BitVec.eq_of_getLsbD_eq
  intro i hi
  simp only [shamtField, rWord, BitVec.getLsbD_extractLsb', BitVec.getLsbD_append]
  interval_cases i <;> simp

@[simp] theorem functField_rWord : functField (rWord a b d h fn) = fn := by
  apply BitVec.eq_of_getLsbD_eq
  intro i hi
  simp only [functField, rWord, BitVec.getLsbD_extractLsb', BitVec.getLsbD_append]
  interval_cases i <;> simp

@[simp] theorem opcodeField_iWord : opcodeField (iWord op a b imm) = op := by
  apply BitVec.eq_of_getLsbD_eq
  intro i hi
  simp only [opcodeField, iWord, BitVec.getLsbD_extractLsb', BitVec.getLsbD_append]
  interval_cases i <;> simp

@[simp] theorem fieldA_iWord : fieldA (iWord op a b imm) = a := by
  apply BitVec.eq_of_getLsbD_eq
  intro i hi
  simp only [fieldA, iWord, BitVec.getLsbD_extractLsb', BitVec.getLsbD_append]
  interval_cases i <;> simp

@[simp] theorem fieldB_iWord : fieldB (iWord op a b imm) = b := by
  apply BitVec.eq_of_getLsbD_eq
  intro i hi
  simp only [fieldB, iWord, BitVec.getLsbD_extractLsb', BitVec.getLsbD_append]
  interval_cases i <;> simp

@[simp] theorem immField_iWord : immField (iWord op a b imm) = imm := by
  apply BitVec.eq_of_getLsbD_eq
  intro i hi
  simp only [immField, iWord, BitVec.getLsbD_extractLsb', BitVec.getLsbD_append]
  interval_cases i <;> simp

@[simp] theorem opcodeField_jWord : opcodeField (jWord op target) = op := by
  apply BitVec.eq_of_getLsbD_eq
  intro i hi
  simp only [opcodeField, jWord, BitVec.getLsbD_extractLsb', BitVec.getLsbD_append]
  interval_cases i <;> simp

@[simp] theorem targetField_jWord : targetField (jWord op target) = target := by
  apply BitVec.eq_of_getLsbD_eq
  intro i hi
  simp only [targetField, jWord, BitVec.getLsbD_extractLsb', BitVec.getLsbD_append]
  interval_cases i <;> simp

/-! ### The bits a table row fixes -/

theorem rWord_mask : rWord a b d h fn &&& 0xFC00003F#32 = fn.setWidth 32 := by
  apply BitVec.eq_of_getLsbD_eq
  intro i hi
  simp only [rWord, BitVec.getLsbD_and, BitVec.getLsbD_append, BitVec.getLsbD_setWidth]
  interval_cases i <;> simp

theorem iWord_mask : iWord op a b imm &&& 0xFC000000#32 = op.setWidth 32 <<< 26 := by
  apply BitVec.eq_of_getLsbD_eq
  intro i hi
  simp only [iWord, BitVec.getLsbD_and, BitVec.getLsbD_append, BitVec.getLsbD_setWidth, BitVec.getLsbD_shiftLeft]
  interval_cases i <;> simp

theorem jWord_mask : jWord op target &&& 0xFC000000#32 = op.setWidth 32 <<< 26 := by
  apply BitVec.eq_of_getLsbD_eq
  intro i hi
  simp only [jWord, BitVec.getLsbD_and, BitVec.getLsbD_append, BitVec.getLsbD_setWidth, BitVec.getLsbD_shiftLeft]
  interval_cases i <;> simp

end

/-! ### Ignored bits masked off (R72) -/

section
variable (a b d h : BitVec 5) (fn op : BitVec 6) (imm : BitVec 16)

/-- `w[10:6]` ignored. -/
theorem rWord_noShamt : rWord a b d h fn &&& 0xFFFFF83F#32 = rWord a b d 0#5 fn := by
  apply BitVec.eq_of_getLsbD_eq
  intro i hi
  simp only [rWord, BitVec.getLsbD_and, BitVec.getLsbD_append]
  interval_cases i <;> simp

/-- `w[25:16]` and `w[10:6]` ignored. -/
theorem rWord_onlyD : rWord a b d h fn &&& 0xFC00F83F#32 = rWord 0#5 0#5 d 0#5 fn := by
  apply BitVec.eq_of_getLsbD_eq
  intro i hi
  simp only [rWord, BitVec.getLsbD_and, BitVec.getLsbD_append]
  interval_cases i <;> simp

/-- `w[15:6]` ignored. -/
theorem rWord_onlyAB : rWord a b d h fn &&& 0xFFFF003F#32 = rWord a b 0#5 0#5 fn := by
  apply BitVec.eq_of_getLsbD_eq
  intro i hi
  simp only [rWord, BitVec.getLsbD_and, BitVec.getLsbD_append]
  interval_cases i <;> simp

/-- `w[25:21]` ignored. -/
theorem rWord_noA : rWord a b d h fn &&& 0xFC1FFFFF#32 = rWord 0#5 b d h fn := by
  apply BitVec.eq_of_getLsbD_eq
  intro i hi
  simp only [rWord, BitVec.getLsbD_and, BitVec.getLsbD_append]
  interval_cases i <;> simp

/-- `w[20:6]` ignored. -/
theorem rWord_onlyA : rWord a b d h fn &&& 0xFFE0003F#32 = rWord a 0#5 0#5 0#5 fn := by
  apply BitVec.eq_of_getLsbD_eq
  intro i hi
  simp only [rWord, BitVec.getLsbD_and, BitVec.getLsbD_append]
  interval_cases i <;> simp

/-- `w[20:16]` ignored. -/
theorem iWord_noB : iWord op a b imm &&& 0xFFE0FFFF#32 = iWord op a 0#5 imm := by
  apply BitVec.eq_of_getLsbD_eq
  intro i hi
  simp only [iWord, BitVec.getLsbD_and, BitVec.getLsbD_append]
  interval_cases i <;> simp

end

/-- No bit ignored. -/
theorem word_allKept (w : Word) : w &&& 0xFFFFFFFF#32 = w := by
  apply BitVec.eq_of_getLsbD_eq
  intro i hi
  simp only [BitVec.getLsbD_and]
  interval_cases i <;> simp

/-- A 6-bit field known by its value. -/
theorem field6_eq {x : BitVec 6} {n : Nat} (h : x.toNat = n) : x = BitVec.ofNat 6 n := by
  subst h; simp

/-! ### Words rebuilt from their fields -/

/-- A word of the register class is made of its six fields. -/
theorem rWord_fields (w : Word) (h : opcodeField w = 0) :
    rWord (fieldA w) (fieldB w) (fieldD w) (shamtField w) (functField w) = w := by
  apply BitVec.eq_of_getLsbD_eq
  intro i hi
  have hop : ∀ k, (opcodeField w).getLsbD k = false := by simp [h]
  have h26 := hop 0; have h27 := hop 1; have h28 := hop 2
  have h29 := hop 3; have h30 := hop 4; have h31 := hop 5
  simp only [opcodeField, BitVec.getLsbD_extractLsb'] at h26 h27 h28 h29 h30 h31
  simp only [rWord, fieldA, fieldB, fieldD, shamtField, functField, BitVec.getLsbD_append,
    BitVec.getLsbD_extractLsb']
  interval_cases i <;> simp_all

/-- A word of the immediate class is made of its four fields. -/
theorem iWord_fields (w : Word) : iWord (opcodeField w) (fieldA w) (fieldB w) (immField w) = w := by
  apply BitVec.eq_of_getLsbD_eq
  intro i hi
  simp only [iWord, opcodeField, fieldA, fieldB, immField, BitVec.getLsbD_append,
    BitVec.getLsbD_extractLsb']
  interval_cases i <;> simp

/-- A word of the jump class is made of its two fields. -/
theorem jWord_fields (w : Word) : jWord (opcodeField w) (targetField w) = w := by
  apply BitVec.eq_of_getLsbD_eq
  intro i hi
  simp only [jWord, opcodeField, targetField, BitVec.getLsbD_append, BitVec.getLsbD_extractLsb']
  interval_cases i <;> simp

end Sys2Proof
end

