-- ==== Sys2Proof/Laws/State.lean ====
section
/-! SUPPORT. One lemma per field per update, so that no proof unfolds a record update. -/

namespace Sys2Proof.Machine

variable (s : State)

/-! ### setReg -/

@[simp] theorem setReg_x (r : RegCode) (v : Word) : (s.setReg r v).x = s.x.set r.val v := rfl
@[simp] theorem setReg_hi (r : RegCode) (v : Word) : (s.setReg r v).hi = s.hi := rfl
@[simp] theorem setReg_lo (r : RegCode) (v : Word) : (s.setReg r v).lo = s.lo := rfl
@[simp] theorem setReg_pc (r : RegCode) (v : Word) : (s.setReg r v).pc = s.pc := rfl
@[simp] theorem setReg_mem (r : RegCode) (v : Word) : (s.setReg r v).mem = s.mem := rfl
@[simp] theorem setReg_lp (r : RegCode) (v : Word) : (s.setReg r v).lp = s.lp := rfl
@[simp] theorem setReg_status (r : RegCode) (v : Word) : (s.setReg r v).status = s.status := rfl
@[simp] theorem setReg_config (r : RegCode) (v : Word) : (s.setReg r v).config = s.config := rfl

/-! ### setHiLo -/

@[simp] theorem setHiLo_x (h l : Word) : (s.setHiLo h l).x = s.x := rfl
@[simp] theorem setHiLo_hi (h l : Word) : (s.setHiLo h l).hi = h := rfl
@[simp] theorem setHiLo_lo (h l : Word) : (s.setHiLo h l).lo = l := rfl
@[simp] theorem setHiLo_pc (h l : Word) : (s.setHiLo h l).pc = s.pc := rfl
@[simp] theorem setHiLo_mem (h l : Word) : (s.setHiLo h l).mem = s.mem := rfl
@[simp] theorem setHiLo_lp (h l : Word) : (s.setHiLo h l).lp = s.lp := rfl
@[simp] theorem setHiLo_status (h l : Word) : (s.setHiLo h l).status = s.status := rfl
@[simp] theorem setHiLo_config (h l : Word) : (s.setHiLo h l).config = s.config := rfl

/-! ### setPc -/

@[simp] theorem setPc_x (p : Int) : (s.setPc p).x = s.x := rfl
@[simp] theorem setPc_hi (p : Int) : (s.setPc p).hi = s.hi := rfl
@[simp] theorem setPc_lo (p : Int) : (s.setPc p).lo = s.lo := rfl
@[simp] theorem setPc_pc (p : Int) : (s.setPc p).pc = p := rfl
@[simp] theorem setPc_mem (p : Int) : (s.setPc p).mem = s.mem := rfl
@[simp] theorem setPc_lp (p : Int) : (s.setPc p).lp = s.lp := rfl
@[simp] theorem setPc_status (p : Int) : (s.setPc p).status = s.status := rfl
@[simp] theorem setPc_config (p : Int) : (s.setPc p).config = s.config := rfl

/-! ### advance -/

@[simp] theorem advance_x : s.advance.x = s.x := rfl
@[simp] theorem advance_hi : s.advance.hi = s.hi := rfl
@[simp] theorem advance_lo : s.advance.lo = s.lo := rfl
@[simp] theorem advance_pc : s.advance.pc = s.pc + 1 := rfl
@[simp] theorem advance_mem : s.advance.mem = s.mem := rfl
@[simp] theorem advance_lp : s.advance.lp = s.lp := rfl
@[simp] theorem advance_status : s.advance.status = s.status := rfl
@[simp] theorem advance_config : s.advance.config = s.config := rfl

/-! ### halt -/

@[simp] theorem halt_x : s.halt.x = s.x := rfl
@[simp] theorem halt_hi : s.halt.hi = s.hi := rfl
@[simp] theorem halt_lo : s.halt.lo = s.lo := rfl
@[simp] theorem halt_pc : s.halt.pc = s.pc := rfl
@[simp] theorem halt_mem : s.halt.mem = s.mem := rfl
@[simp] theorem halt_lp : s.halt.lp = s.lp := rfl
@[simp] theorem halt_status : s.halt.status = .halted := rfl
@[simp] theorem halt_config : s.halt.config = s.config := rfl

/-! ### raise -/

@[simp] theorem raise_x (e : Raised) : (s.raise e).x = s.x := rfl
@[simp] theorem raise_hi (e : Raised) : (s.raise e).hi = s.hi := rfl
@[simp] theorem raise_lo (e : Raised) : (s.raise e).lo = s.lo := rfl
@[simp] theorem raise_pc (e : Raised) : (s.raise e).pc = s.pc := rfl
@[simp] theorem raise_mem (e : Raised) : (s.raise e).mem = s.mem := rfl
@[simp] theorem raise_lp (e : Raised) : (s.raise e).lp = s.lp := rfl
@[simp] theorem raise_status (e : Raised) : (s.raise e).status = .faulted e.kind := rfl
@[simp] theorem raise_config (e : Raised) : (s.raise e).config = s.config := rfl

/-! ### putCell -/

@[simp] theorem putCell_x (a : Nat) (c : Cell) : (s.putCell a c).x = s.x := rfl
@[simp] theorem putCell_hi (a : Nat) (c : Cell) : (s.putCell a c).hi = s.hi := rfl
@[simp] theorem putCell_lo (a : Nat) (c : Cell) : (s.putCell a c).lo = s.lo := rfl
@[simp] theorem putCell_pc (a : Nat) (c : Cell) : (s.putCell a c).pc = s.pc := rfl
@[simp] theorem putCell_mem (a : Nat) (c : Cell) : (s.putCell a c).mem = s.mem.write a c := rfl
@[simp] theorem putCell_lp (a : Nat) (c : Cell) : (s.putCell a c).lp = s.lp := rfl
@[simp] theorem putCell_status (a : Nat) (c : Cell) : (s.putCell a c).status = s.status := rfl
@[simp] theorem putCell_config (a : Nat) (c : Cell) : (s.putCell a c).config = s.config := rfl

/-! ### placeAtPc -/

@[simp] theorem placeAtPc_x (i : Instr) : (s.placeAtPc i).x = s.x := rfl
@[simp] theorem placeAtPc_hi (i : Instr) : (s.placeAtPc i).hi = s.hi := rfl
@[simp] theorem placeAtPc_lo (i : Instr) : (s.placeAtPc i).lo = s.lo := rfl
@[simp] theorem placeAtPc_pc (i : Instr) : (s.placeAtPc i).pc = s.pc := rfl
@[simp] theorem placeAtPc_mem (i : Instr) : (s.placeAtPc i).mem = s.mem.write s.pc.toNat (.instr i) := rfl
@[simp] theorem placeAtPc_lp (i : Instr) : (s.placeAtPc i).lp = max s.lp (s.pc.toNat + 1) := rfl
@[simp] theorem placeAtPc_status (i : Instr) : (s.placeAtPc i).status = .running := rfl
@[simp] theorem placeAtPc_config (i : Instr) : (s.placeAtPc i).config = s.config := rfl

/-! ### dst -/

@[simp] theorem dst_hi (o : Operand) (v : Word) : (s.dst o v).hi = s.hi := by cases o <;> rfl
@[simp] theorem dst_lo (o : Operand) (v : Word) : (s.dst o v).lo = s.lo := by cases o <;> rfl
@[simp] theorem dst_pc (o : Operand) (v : Word) : (s.dst o v).pc = s.pc := by cases o <;> rfl
@[simp] theorem dst_mem (o : Operand) (v : Word) : (s.dst o v).mem = s.mem := by cases o <;> rfl
@[simp] theorem dst_lp (o : Operand) (v : Word) : (s.dst o v).lp = s.lp := by cases o <;> rfl
@[simp] theorem dst_status (o : Operand) (v : Word) : (s.dst o v).status = s.status := by cases o <;> rfl
@[simp] theorem dst_config (o : Operand) (v : Word) : (s.dst o v).config = s.config := by cases o <;> rfl
@[simp] theorem dst_absent (v : Word) : s.dst .absent v = s := rfl
@[simp] theorem dst_reg (r : RegCode) (v : Word) : s.dst (.reg r) v = s.setReg r v := rfl

/-! ### construct and reset -/

@[simp] theorem construct_x (c : Config) : (State.construct c).x = Vector.replicate 32 0 := rfl
@[simp] theorem construct_hi (c : Config) : (State.construct c).hi = 0 := rfl
@[simp] theorem construct_lo (c : Config) : (State.construct c).lo = 0 := rfl
@[simp] theorem construct_pc (c : Config) : (State.construct c).pc = 0 := rfl
@[simp] theorem construct_mem (c : Config) : (State.construct c).mem = [] := rfl
@[simp] theorem construct_lp (c : Config) : (State.construct c).lp = 0 := rfl
@[simp] theorem construct_status (c : Config) : (State.construct c).status = .running := rfl
@[simp] theorem construct_config (c : Config) : (State.construct c).config = c := rfl

/-! ### Registers -/

theorem reg_eq (r : RegCode) : s.reg r = s.x[r.val] := rfl

@[simp] theorem setReg_reg (r q : RegCode) (v : Word) :
    (s.setReg r v).reg q = if r = q then v else s.reg q := by
  simp [reg_eq, Vector.getElem_set, Fin.ext_iff]

@[simp] theorem dst_apply (o : Operand) (v : Word) (q : RegCode) :
    (s.dst o v).reg q = if o = .reg q then v else s.reg q := by
  cases o <;> simp

@[simp] theorem setHiLo_reg (h l : Word) (q : RegCode) : (s.setHiLo h l).reg q = s.reg q := rfl
@[simp] theorem setPc_reg (p : Int) (q : RegCode) : (s.setPc p).reg q = s.reg q := rfl
@[simp] theorem advance_reg (q : RegCode) : s.advance.reg q = s.reg q := rfl
@[simp] theorem halt_reg (q : RegCode) : s.halt.reg q = s.reg q := rfl
@[simp] theorem raise_reg (e : Raised) (q : RegCode) : (s.raise e).reg q = s.reg q := rfl
@[simp] theorem putCell_reg (a : Nat) (c : Cell) (q : RegCode) : (s.putCell a c).reg q = s.reg q := rfl
@[simp] theorem placeAtPc_reg (i : Instr) (q : RegCode) : (s.placeAtPc i).reg q = s.reg q := rfl
@[simp] theorem construct_reg (c : Config) (q : RegCode) : (State.construct c).reg q = 0 := by
  simp [reg_eq]

/-! ### Cells -/

theorem cell_eq (a : Nat) : s.cell a = s.mem.read a := rfl

@[simp] theorem setReg_cell (r : RegCode) (v : Word) (k : Nat) : (s.setReg r v).cell k = s.cell k := rfl
@[simp] theorem setHiLo_cell (h l : Word) (k : Nat) : (s.setHiLo h l).cell k = s.cell k := rfl
@[simp] theorem setPc_cell (p : Int) (k : Nat) : (s.setPc p).cell k = s.cell k := rfl
@[simp] theorem advance_cell (k : Nat) : s.advance.cell k = s.cell k := rfl
@[simp] theorem halt_cell (k : Nat) : s.halt.cell k = s.cell k := rfl
@[simp] theorem raise_cell (e : Raised) (k : Nat) : (s.raise e).cell k = s.cell k := rfl
@[simp] theorem dst_cell (o : Operand) (v : Word) (k : Nat) : (s.dst o v).cell k = s.cell k := by cases o <;> rfl
@[simp] theorem construct_cell (c : Config) (k : Nat) : (State.construct c).cell k = .data 0 := rfl

end Sys2Proof.Machine
end

