-- ==== Sys2Proof/Laws/Memory.lean ====
section
/-! SUPPORT. The laws of memory: a read after a write, and the canonical form. -/

namespace Sys2Proof.Machine

@[simp] theorem read_nil (a : Nat) : Memory.read [] a = Cell.untouched := rfl

@[simp] theorem read_cons (b : Nat) (c : Cell) (m : Memory) (a : Nat) :
    Memory.read ((b, c) :: m) a = if a = b then c else Memory.read m a := rfl

theorem read_of_above {m : Memory} {b a : Nat} (h : Memory.above b m = true) (hab : a ≤ b) :
    m.read a = Cell.untouched := by
  induction m with
  | nil => rfl
  | cons p m ih =>
    obtain ⟨k, c⟩ := p
    simp only [Memory.above, List.all_cons, Bool.and_eq_true, decide_eq_true_eq] at h ih
    simp [show a ≠ k by omega, ih h.2]

theorem above_trans {m : Memory} {a b : Nat} (h : Memory.above b m = true) (hab : a ≤ b) :
    Memory.above a m = true := by
  simp only [Memory.above, List.all_eq_true, decide_eq_true_eq] at h ⊢
  exact fun p hp => by have := h p hp; omega

theorem wf_cons {b : Nat} {c : Cell} {m : Memory} :
    Memory.wf ((b, c) :: m) = true ↔
      c ≠ Cell.untouched ∧ Memory.above b m = true ∧ Memory.wf m = true := by
  simp [Memory.wf, and_assoc]

/-- Reading `consCell`, when the tail holds nothing at `a`. -/
theorem read_consCell {m : Memory} {a : Nat} {c : Cell} (h : m.read a = Cell.untouched) (k : Nat) :
    (Memory.consCell a c m).read k = if k = a then c else m.read k := by
  unfold Memory.consCell
  split
  · split <;> simp_all
  · rfl

theorem above_cons {b k : Nat} {d : Cell} {m : Memory} :
    Memory.above b ((k, d) :: m) = true ↔ b < k ∧ Memory.above b m = true := by
  simp [Memory.above]

theorem above_consCell {b a : Nat} {c : Cell} {m : Memory} (h : Memory.above b m = true)
    (hab : b < a) : Memory.above b (Memory.consCell a c m) = true := by
  unfold Memory.consCell
  split
  · exact h
  · exact above_cons.2 ⟨hab, h⟩

theorem above_write {m : Memory} {b a : Nat} {c : Cell} (h : Memory.above b m = true)
    (hab : b < a) : Memory.above b (m.write a c) = true := by
  induction m with
  | nil => exact above_consCell h hab
  | cons p m ih =>
    obtain ⟨k, d⟩ := p
    have hk := above_cons.1 h
    simp only [Memory.write]
    split
    · exact above_consCell h hab
    · split
      · exact above_consCell hk.2 hab
      · exact above_cons.2 ⟨hk.1, ih hk.2⟩

/-- A read after a write, at the same index and at any other (spec/20_memory.md R50). -/
theorem read_write {m : Memory} (hm : m.wf = true) (a k : Nat) (c : Cell) :
    (m.write a c).read k = if k = a then c else m.read k := by
  induction m with
  | nil => simpa [Memory.write] using read_consCell (m := []) rfl k
  | cons p m ih =>
    obtain ⟨b, d⟩ := p
    obtain ⟨-, habove, hwf⟩ := wf_cons.1 hm
    simp only [Memory.write]
    split
    · rename_i hlt
      refine read_consCell ?_ k
      simp [show a ≠ b by omega, read_of_above habove (Nat.le_of_lt hlt)]
    · split
      · subst_vars
        rw [read_consCell (read_of_above habove (Nat.le_refl _))]
        split <;> simp_all
      · simp only [read_cons, ih hwf]
        split <;> split <;> simp_all

/-- Every write keeps the canonical form. -/
theorem wf_write {m : Memory} (hm : m.wf = true) (a : Nat) (c : Cell) :
    (m.write a c).wf = true := by
  induction m with
  | nil => simp only [Memory.write, Memory.consCell]; split <;> simp_all [Memory.wf, Memory.above]
  | cons p m ih =>
    obtain ⟨b, d⟩ := p
    obtain ⟨hd, habove, hwf⟩ := wf_cons.1 hm
    simp only [Memory.write]
    split
    · rename_i hlt
      unfold Memory.consCell
      split
      · exact hm
      · refine wf_cons.2 ⟨‹_›, ?_, hm⟩
        simp [Memory.above, hlt]
        exact fun k e h => by
          have := List.all_eq_true.1 habove (k, e) h
          simp at this; omega
    · split
      · subst_vars
        unfold Memory.consCell
        split
        · exact hwf
        · exact wf_cons.2 ⟨‹_›, habove, hwf⟩
      · exact wf_cons.2 ⟨hd, above_write habove (by omega), ih hwf⟩

/-- Two memories in canonical form that read alike are equal. -/
theorem memory_ext {m n : Memory} (hm : m.wf = true) (hn : n.wf = true)
    (h : ∀ a, m.read a = n.read a) : m = n := by
  induction m generalizing n with
  | nil =>
    cases n with
    | nil => rfl
    | cons q n =>
      obtain ⟨b, d⟩ := q
      have := h b
      simp at this
      exact absurd this.symm (wf_cons.1 hn).1
  | cons p m ih =>
    obtain ⟨a, c⟩ := p
    obtain ⟨hc, ha, hwf⟩ := wf_cons.1 hm
    cases n with
    | nil => exact absurd (by simpa using h a) hc
    | cons q n =>
      obtain ⟨b, d⟩ := q
      obtain ⟨hd, hb, hwf'⟩ := wf_cons.1 hn
      have hab : a = b := by
        rcases Nat.lt_trichotomy a b with hlt | heq | hlt
        · have := h a
          simp [show a ≠ b by omega, read_of_above hb (Nat.le_of_lt hlt)] at this
          exact absurd this hc
        · exact heq
        · have := h b
          simp [show b ≠ a by omega, read_of_above ha (Nat.le_of_lt hlt)] at this
          exact absurd this.symm hd
      subst hab
      have hcd : c = d := by simpa using h a
      subst hcd
      refine congrArg _ (ih hwf hwf' fun k => ?_)
      have hk := h k
      by_cases hka : k = a
      · subst hka
        rw [read_of_above ha (Nat.le_refl _), read_of_above hb (Nat.le_refl _)]
      · simpa [hka] using hk

/-! ### Through the state -/

theorem putCell_cell {s : State} (h : s.mem.wf = true) (a k : Nat) (c : Cell) :
    (s.putCell a c).cell k = if k = a then c else s.cell k := read_write h a k c

theorem putCell_wf {s : State} (h : s.mem.wf = true) (a : Nat) (c : Cell) :
    (s.putCell a c).mem.wf = true := wf_write h a c

theorem placeAtPc_cell {s : State} (h : s.mem.wf = true) (i : Instr) (k : Nat) :
    (s.placeAtPc i).cell k = if k = s.pc.toNat then .instr i else s.cell k := read_write h _ k _

theorem placeAtPc_wf {s : State} (h : s.mem.wf = true) (i : Instr) :
    (s.placeAtPc i).mem.wf = true := wf_write h _ _

theorem reset_memory_wf : State.reset.mem.wf = true := rfl

end Sys2Proof.Machine
end

