-- ==== Sys2Proof/Laws/Ops.lean ====
section
/-! SUPPORT. What the shared operations answer, one lemma each: cite these instead of unfolding. -/

namespace Sys2Proof.Machine

variable {s t : State}

theorem inRange_iff {a : Int} : s.inRange a = true ↔ 0 ≤ a ∧ a < s.config.memWords := by
  simp [State.inRange]

/-! ### Operands -/

@[simp] theorem src_absent : s.src .absent = 0 := rfl
@[simp] theorem src_reg (r : RegCode) : s.src (.reg r) = s.reg r := rfl
@[simp] theorem srcInt_absent : s.srcInt .absent = 0 := rfl

theorem srcInt_eq (o : Operand) : s.srcInt o = (s.src o).toInt := rfl

theorem srcInt_bounds (o : Operand) : -(2 ^ 31) ≤ s.srcInt o ∧ s.srcInt o < 2 ^ 31 := by
  have h1 := BitVec.le_toInt (s.src o)
  have h2 := BitVec.toInt_lt (x := s.src o)
  exact ⟨by simpa [State.srcInt] using h1, by simpa [State.srcInt] using h2⟩

theorem immInt_bounds (imm : BitVec 16) : 0 ≤ immInt imm ∧ immInt imm ≤ 65535 := by
  have := imm.isLt
  unfold immInt
  omega

theorem effAddr_eq (o : Operand) (imm : BitVec 16) :
    s.effAddr o imm = (s.src o).toInt + imm.toNat := rfl

/-! ### Memory access -/

/-- A load that succeeds reads a data word in range. -/
theorem memRead_ok {a : Int} {v : Word} :
    s.memRead a = .ok v ↔ s.inRange a = true ∧ s.cell a.toNat = .data v := by
  unfold State.memRead
  cases s.inRange a <;> cases s.cell a.toNat <;> simp

/-- A load that faults is out of range, or in range on an instruction cell. -/
theorem memRead_error {a : Int} {r : Raised} :
    s.memRead a = .error r ↔
      (s.inRange a = false ∧ r = .memoryFault a) ∨
      (s.inRange a = true ∧ (∃ i, s.cell a.toNat = .instr i) ∧ r = .instrCellRead a) := by
  unfold State.memRead
  cases s.inRange a <;> cases s.cell a.toNat <;> simp <;> exact eq_comm

/-- A store that succeeds is in range and replaces one cell. -/
theorem memWrite_ok {a : Int} {v : Word} :
    s.memWrite a v = .ok t ↔ s.inRange a = true ∧ t = s.putCell a.toNat (.data v) := by
  unfold State.memWrite
  cases s.inRange a <;> simp; exact eq_comm

/-- A store that faults is out of range. -/
theorem memWrite_error {a : Int} {v : Word} {r : Raised} :
    s.memWrite a v = .error r ↔ s.inRange a = false ∧ r = .memoryFault a := by
  unfold State.memWrite
  cases s.inRange a <;> simp; exact eq_comm

theorem fetch_ok {c : Cell} :
    s.fetch = .ok c ↔ s.inRange s.pc = true ∧ c = s.cell s.pc.toNat := by
  unfold State.fetch
  cases s.inRange s.pc <;> simp; exact eq_comm

theorem fetch_error {r : Raised} :
    s.fetch = .error r ↔ s.inRange s.pc = false ∧ r = .memoryFault s.pc := by
  unfold State.fetch
  cases s.inRange s.pc <;> simp; exact eq_comm

/-! ### How an instruction ends -/

@[simp] theorem done_eq : s.done = .next s.advance := rfl

/-- An instruction that accesses memory always answers a next state: its effect and the advance, or
the fault raised in the state it began in. -/
theorem doneOr_next {e : Except Raised State} :
    s.doneOr e = .next t ↔
      (∃ u, e = .ok u ∧ t = u.advance) ∨ (∃ r, e = .error r ∧ t = s.raise r) := by
  cases e <;> simp [State.doneOr, eq_comm]

@[simp] theorem doneOr_ok {u : State} : s.doneOr (.ok u) = .next u.advance := rfl
@[simp] theorem doneOr_error {r : Raised} : s.doneOr (.error r) = .next (s.raise r) := rfl

/-- A branch sets `pc` in either case: to the target, or to where it stands. -/
theorem branch_eq (taken : Bool) (imm : BitVec 16) :
    s.branch taken imm = s.setPc (if taken then s.pc + immInt imm else s.pc) := by
  cases taken <;> rfl

end Sys2Proof.Machine
end

