-- ==== Sys2Proof/Laws/Step.lean ====
section
/-! SUPPORT. Everything a step can do, said once: the effects of `exec` and the cases of `step`. -/

namespace Sys2Proof.Machine

/-- The effects an instruction can have on a state, each with the family that can have it. -/
inductive ExecEffect (i : Instr) (s : State) : State → Prop where
  /-- a memory access faulted -/
  | raised (r : Raised) (hf : familyOf i = .load ∨ familyOf i = .store)
      (h : r.kind = .memoryFault ∨ r.kind = .instrCellRead) : ExecEffect i s (s.raise r)
  /-- one register operand of the record was written -/
  | wroteReg (o : Operand) (v : Word) (h : o ∈ i.operands) : ExecEffect i s (s.dst o v).advance
  /-- HI and LO were written -/
  | wroteAcc (h l : Word) (hf : familyOf i = .mulDiv) : ExecEffect i s (s.setHiLo h l).advance
  /-- a data word was stored in range -/
  | stored (a : Int) (v : Word) (hf : familyOf i = .store) (h : s.inRange a = true) :
      ExecEffect i s (s.putCell a.toNat (.data v)).advance
  /-- control went to a target within reach -/
  | went (p : Int) (hf : familyOf i = .jump ∨ familyOf i = .branch)
      (h : -(2 ^ 31) ≤ p ∨ s.pc ≤ p) (h' : p < 2 ^ 31 ∨ p ≤ s.pc + 65535) :
      ExecEffect i s (s.setPc p).advance
  /-- control went to a target and the link register was written -/
  | linked (p : Int) (v : Word) (hf : familyOf i = .jump) (h : 0 ≤ p) (h' : p < 2 ^ 26) :
      ExecEffect i s ((s.setReg 31 v).setPc p).advance

theorem load_effect {i : Instr} {s t : State} {o : Operand} {a : Int} {f : Word → Word}
    (hf : familyOf i = .load) (ho : o ∈ i.operands)
    (h : s.doneOr ((s.memRead a).map fun v => s.dst o (f v)) = .next t) : ExecEffect i s t := by
  cases hr : s.memRead a with
  | ok v =>
    simp [hr, Except.map] at h
    exact h ▸ .wroteReg o (f v) ho
  | error r =>
    simp [hr, Except.map] at h
    refine h ▸ .raised r (.inl hf) ?_
    rcases memRead_error.1 hr with ⟨-, rfl⟩ | ⟨-, -, rfl⟩ <;> simp [Raised.kind]

theorem store_effect {i : Instr} {s t : State} {a : Int} {v : Word} (hf : familyOf i = .store)
    (h : s.doneOr (s.memWrite a v) = .next t) : ExecEffect i s t := by
  cases hr : s.memWrite a v with
  | ok u =>
    obtain ⟨ha, rfl⟩ := memWrite_ok.1 hr
    simp [hr] at h
    exact h ▸ .stored a v hf ha
  | error r =>
    obtain ⟨-, rfl⟩ := memWrite_error.1 hr
    simp [hr] at h
    exact h ▸ .raised _ (.inr hf) (.inl rfl)

theorem branch_effect {i : Instr} {s t : State} {b : Bool} {imm : BitVec 16}
    (hf : familyOf i = .branch) (h : (s.branch b imm).done = .next t) : ExecEffect i s t := by
  have himm := immInt_bounds imm
  rw [branch_eq] at h
  simp only [done_eq, Host.Outcome.next.injEq] at h
  exact h ▸ .went _ (.inr hf) (by split <;> omega) (by split <;> omega)

/-- Every next state `exec` answers is one of the effects. -/
theorem exec_effect {i : Instr} {s t : State} (h : exec i s = .next t) : ExecEffect i s t := by
  cases i with
  | lw tgt base imm => exact load_effect (f := id) rfl (by simp [Instr.operands]) h
  | lb tgt base imm => exact load_effect (f := byteAsWord) rfl (by simp [Instr.operands]) h
  | lbu tgt base imm => exact load_effect (f := byteAsWord) rfl (by simp [Instr.operands]) h
  | sw tgt base imm => exact store_effect rfl h
  | sb tgt base imm => exact store_effect rfl h
  | jr rs =>
    have hb := srcInt_bounds (s := s) rs
    simp only [exec, execJr, done_eq, Host.Outcome.next.injEq] at h
    exact h ▸ .went _ (.inl rfl) (by omega) (by omega)
  | j target =>
    have hb := target.isLt
    simp only [exec, execJ, done_eq, Host.Outcome.next.injEq] at h
    exact h ▸ .went _ (.inl rfl) (by omega) (by omega)
  | jal target =>
    have hb := target.isLt
    simp only [exec, execJal, done_eq, Host.Outcome.next.injEq] at h
    exact h ▸ .linked _ _ rfl (by omega) (by omega)
  | beq rs rt imm => exact branch_effect rfl h
  | bne rs rt imm => exact branch_effect rfl h
  | bltz rs imm => exact branch_effect rfl h
  | mult rs rt => exact (Host.Outcome.next.inj h) ▸ .wroteAcc _ _ rfl
  | multu rs rt => exact (Host.Outcome.next.inj h) ▸ .wroteAcc _ _ rfl
  | div rs rt => exact (Host.Outcome.next.inj h) ▸ .wroteAcc _ _ rfl
  | divu rs rt => exact (Host.Outcome.next.inj h) ▸ .wroteAcc _ _ rfl
  | _ => exact (Host.Outcome.next.inj h) ▸ .wroteReg _ _ (by simp [Instr.operands])

/-- `exec` answers a next state for every record and every state: no meaning stops. -/
theorem exec_next (i : Instr) (s : State) : ∃ t, exec i s = .next t := by
  have hm : ∀ e, ∃ t, s.doneOr e = .next t := by
    intro e; cases e <;> exact ⟨_, rfl⟩
  cases i with
  | lw | sw | lb | lbu | sb => exact hm _
  | _ => exact ⟨_, rfl⟩

/-- The cases of a step that answers a next state: a fetch out of range, a data cell, or the
instruction of an instruction cell. -/
theorem step_next {s t : State} (h : step s = .next t) :
    s.status = .running ∧
      ((s.inRange s.pc = false ∧ t = s.raise (.memoryFault s.pc)) ∨
       (s.inRange s.pc = true ∧ (∃ v, s.cell s.pc.toNat = .data v) ∧ t = s.halt) ∨
       (s.inRange s.pc = true ∧ ∃ i, s.cell s.pc.toNat = .instr i ∧ exec i s = .next t)) := by
  unfold step at h
  split at h
  · cases h
  · cases h
  · refine ⟨‹_›, ?_⟩
    split at h
    · rename_i hf
      obtain ⟨hr, rfl⟩ := fetch_error.1 hf
      exact .inl ⟨hr, (Host.Outcome.next.inj h).symm⟩
    · rename_i v hf
      obtain ⟨hr, hc⟩ := fetch_ok.1 hf
      exact .inr (.inl ⟨hr, ⟨v, hc.symm⟩, (Host.Outcome.next.inj h).symm⟩)
    · rename_i i hf
      obtain ⟨hr, hc⟩ := fetch_ok.1 hf
      exact .inr (.inr ⟨hr, i, hc.symm, h⟩)

/-- A running machine whose `pc` is at an instruction cell executes that record. -/
theorem step_of_instr {s : State} {i : Instr} (hs : s.status = .running)
    (hr : s.inRange s.pc = true) (hc : s.cell s.pc.toNat = .instr i) : step s = exec i s := by
  have hf : s.fetch = .ok (.instr i) := fetch_ok.2 ⟨hr, hc.symm⟩
  simp [step, hs, hf]

end Sys2Proof.Machine
end

