-- ==== Sys2Proof/Laws/Frames.lean ====
section
/-! SUPPORT. The frame of each way an instruction or a step can end, proved once. -/

namespace Sys2Proof.Machine

theorem writesReg_dst (s : State) (o : Operand) (v : Word) :
    WritesReg s (s.dst o v).advance o v := by
  constructor <;> simp [RegGets, AccKept, CellsKept, HostKept]

theorem writesAcc_setHiLo (s : State) (h l : Word) : WritesAcc s (s.setHiLo h l).advance h l := by
  constructor <;> simp [RegsKept, CellsKept, HostKept]

theorem goesTo_setPc (s : State) (p : Int) : GoesTo s (s.setPc p).advance (p + 1) := by
  constructor <;> simp [RegsKept, AccKept, CellsKept, HostKept]

theorem cellGets_putCell {s : State} (hw : s.mem.wf = true) {a : Int} (ha : 0 ≤ a) (v : Word) :
    CellGets s (s.putCell a.toNat (.data v)) a v := by
  intro b
  rw [putCell_cell hw]
  congr 1
  exact propext ⟨fun h => by omega, fun h => by omega⟩

theorem storesCell_putCell {s : State} (hw : s.mem.wf = true) {a : Int} (ha : 0 ≤ a) (v : Word) :
    StoresCell s (s.putCell a.toNat (.data v)).advance a v where
  regs := fun _ => rfl
  acc := ⟨rfl, rfl⟩
  cells := cellGets_putCell hw ha v
  host := ⟨rfl, rfl⟩
  status := rfl
  pc := rfl

theorem endsWith_raise (s : State) (r : Raised) : EndsWith s (s.raise r) (.faulted r.kind) := by
  constructor <;> simp [RegsKept, AccKept, CellsKept, HostKept]

theorem endsWith_halt (s : State) : EndsWith s s.halt .halted := by
  constructor <;> simp [RegsKept, AccKept, CellsKept, HostKept]

/-- A load that succeeds answers the register write and the advance. -/
theorem load_answers {s : State} {o : Operand} {a : Int} {v : Word} {f : Word → Word}
    (h : s.memRead a = .ok v) :
    s.doneOr ((s.memRead a).map fun v => s.dst o (f v)) = .next (s.dst o (f v)).advance := by
  simp [h, Except.map]

/-- A load that faults answers the fault. -/
theorem load_answers_fault {s : State} {o : Operand} {a : Int} {r : Raised} {f : Word → Word}
    (h : s.memRead a = .error r) :
    s.doneOr ((s.memRead a).map fun v => s.dst o (f v)) = .next (s.raise r) := by
  simp [h, Except.map]

/-- A store in range answers the cell write and the advance. -/
theorem store_answers {s : State} {a : Int} {v : Word} (hw : s.mem.wf = true)
    (ha : s.inRange a = true) :
    ∃ t, s.doneOr (s.memWrite a v) = .next t ∧ StoresCell s t a v :=
  ⟨_, by rw [memWrite_ok.2 ⟨ha, rfl⟩]; rfl, storesCell_putCell hw (inRange_iff.1 ha).1 v⟩

/-- A store out of range answers the fault. -/
theorem store_answers_fault {s : State} {a : Int} {v : Word} (ha : s.inRange a = false) :
    s.doneOr (s.memWrite a v) = .next (s.raise (.memoryFault a)) := by
  rw [memWrite_error.2 ⟨ha, rfl⟩]
  rfl

/-- A branch answers its target, one further. -/
theorem branch_answers (s : State) (b : Bool) (imm : BitVec 16) :
    ∃ t, (s.branch b imm).done = .next t ∧
      GoesTo s t ((if b then s.pc + immInt imm else s.pc) + 1) := by
  rw [branch_eq]
  exact ⟨_, rfl, goesTo_setPc s _⟩

end Sys2Proof.Machine
end

