-- ==== Sys2Proof/Laws/Load.lean ====
section
/-! SUPPORT. What the host's operations can do, said once. -/

namespace Sys2Proof.Machine

variable {s : State} {w : Word}

/-- A word that is no instruction sets the fault. -/
theorem loadWord_illegal {e : DecodeError} (h : decode w = .error e) :
    s.loadWord w = s.raise (.decodeError w e) := by
  simp [State.loadWord, h]

/-- A word for which no cell is left sets the fault. -/
theorem loadWord_full {i : Instr} (h : decode w = .ok i) (hl : s.config.memWords ≤ s.lp) :
    s.loadWord w = s.raise (.memoryFault s.lp) := by
  simp [State.loadWord, h, State.append, Nat.not_lt.2 hl]

/-- Any other word becomes the record in cell `lp`. -/
theorem loadWord_appends {i : Instr} (h : decode w = .ok i) (hl : s.lp < s.config.memWords) :
    s.loadWord w = { s.putCell s.lp (.instr i) with lp := s.lp + 1 } := by
  simp [State.loadWord, h, State.append, hl]

/-- A load goes on from a running state. -/
theorem loadProgram_running (h : s.status = .running) (ws : List Word) :
    s.loadProgram (w :: ws) = (s.loadWord w).loadProgram ws := by
  rw [State.loadProgram, h]

/-- A load takes no word after a fault. -/
theorem loadProgram_faulted {k : FaultKind} (h : s.status = .faulted k) (ws : List Word) :
    s.loadProgram ws = s := by
  cases ws with
  | nil => rfl
  | cons w ws => rw [State.loadProgram, h]

/-- What the observation lists of a data cell and of an instruction cell. -/
@[simp] theorem shown_data (a : Nat) (v : Word) :
    (Cell.data v).shown a = if v = 0 then none else some (a, v) := rfl
@[simp] theorem shown_instr (a : Nat) (i : Instr) : (Cell.instr i).shown a = none := rfl

end Sys2Proof.Machine
end

