-- ==== Sys2Proof/Laws/PerInstr.lean ====
section
/-! SUPPORT. The family TableRow: the encoding of a record has exactly the bits that its row of
spec/opcode_table.json fixes (the row's mask and match, copied from the table; the masks are those
of spec/30_encoding.md R72). -/

namespace Sys2Proof.Laws.TableRow

/-- The mask of the constructor's row in spec/opcode_table.json. -/
def mask : Instr → Word
  | .add _ _ _ => 0xFC00003F
  | .sub _ _ _ => 0xFC00003F
  | .addu _ _ _ => 0xFC00003F
  | .subu _ _ _ => 0xFC00003F
  | .and _ _ _ => 0xFC00003F
  | .or _ _ _ => 0xFC00003F
  | .xor _ _ _ => 0xFC00003F
  | .nor _ _ _ => 0xFC00003F
  | .slt _ _ _ => 0xFC00003F
  | .mfhi _ => 0xFC00003F
  | .mflo _ => 0xFC00003F
  | .mult _ _ => 0xFC00003F
  | .multu _ _ => 0xFC00003F
  | .div _ _ => 0xFC00003F
  | .divu _ _ => 0xFC00003F
  | .sll _ _ _ => 0xFC00003F
  | .srl _ _ _ => 0xFC00003F
  | .sra _ _ _ => 0xFC00003F
  | .sllv _ _ _ => 0xFC00003F
  | .srlv _ _ _ => 0xFC00003F
  | .srav _ _ _ => 0xFC00003F
  | .addi _ _ _ => 0xFC000000
  | .addiu _ _ _ => 0xFC000000
  | .slti _ _ _ => 0xFC000000
  | .andi _ _ _ => 0xFC000000
  | .ori _ _ _ => 0xFC000000
  | .xori _ _ _ => 0xFC000000
  | .lw _ _ _ => 0xFC000000
  | .sw _ _ _ => 0xFC000000
  | .lb _ _ _ => 0xFC000000
  | .lbu _ _ _ => 0xFC000000
  | .sb _ _ _ => 0xFC000000
  | .jr _ => 0xFC00003F
  | .j _ => 0xFC000000
  | .jal _ => 0xFC000000
  | .beq _ _ _ => 0xFC000000
  | .bne _ _ _ => 0xFC000000
  | .bltz _ _ => 0xFC000000

/-- The match value of the constructor's row in spec/opcode_table.json. -/
def pattern : Instr → Word
  | .add _ _ _ => 0x00000020
  | .sub _ _ _ => 0x00000022
  | .addu _ _ _ => 0x00000021
  | .subu _ _ _ => 0x00000023
  | .and _ _ _ => 0x00000024
  | .or _ _ _ => 0x00000025
  | .xor _ _ _ => 0x00000026
  | .nor _ _ _ => 0x00000027
  | .slt _ _ _ => 0x0000002A
  | .mfhi _ => 0x00000010
  | .mflo _ => 0x00000012
  | .mult _ _ => 0x00000018
  | .multu _ _ => 0x00000019
  | .div _ _ => 0x0000001A
  | .divu _ _ => 0x0000001B
  | .sll _ _ _ => 0x00000000
  | .srl _ _ _ => 0x00000002
  | .sra _ _ _ => 0x00000003
  | .sllv _ _ _ => 0x00000004
  | .srlv _ _ _ => 0x00000006
  | .srav _ _ _ => 0x00000007
  | .addi _ _ _ => 0x20000000
  | .addiu _ _ _ => 0x24000000
  | .slti _ _ _ => 0x28000000
  | .andi _ _ _ => 0x30000000
  | .ori _ _ _ => 0x34000000
  | .xori _ _ _ => 0x38000000
  | .lw _ _ _ => 0x8C000000
  | .sw _ _ _ => 0xAC000000
  | .lb _ _ _ => 0x80000000
  | .lbu _ _ _ => 0x90000000
  | .sb _ _ _ => 0xA0000000
  | .jr _ => 0x00000008
  | .j _ => 0x08000000
  | .jal _ => 0x0C000000
  | .beq _ _ _ => 0x10000000
  | .bne _ _ _ => 0x14000000
  | .bltz _ _ => 0x04000000

/-- The encoding of `i`, under the mask of its row, is the row's match value. -/
def Statement (i : Instr) : Prop := encode i &&& mask i = pattern i

theorem add (rd : Operand) (rs : Operand) (rt : Operand) : Statement (.add rd rs rt) :=
  rWord_mask _ _ _ _ _
theorem sub (rd : Operand) (rs : Operand) (rt : Operand) : Statement (.sub rd rs rt) :=
  rWord_mask _ _ _ _ _
theorem addu (rd : Operand) (rs : Operand) (rt : Operand) : Statement (.addu rd rs rt) :=
  rWord_mask _ _ _ _ _
theorem subu (rd : Operand) (rs : Operand) (rt : Operand) : Statement (.subu rd rs rt) :=
  rWord_mask _ _ _ _ _
theorem and (rd : Operand) (rs : Operand) (rt : Operand) : Statement (.and rd rs rt) :=
  rWord_mask _ _ _ _ _
theorem or (rd : Operand) (rs : Operand) (rt : Operand) : Statement (.or rd rs rt) :=
  rWord_mask _ _ _ _ _
theorem xor (rd : Operand) (rs : Operand) (rt : Operand) : Statement (.xor rd rs rt) :=
  rWord_mask _ _ _ _ _
theorem nor (rd : Operand) (rs : Operand) (rt : Operand) : Statement (.nor rd rs rt) :=
  rWord_mask _ _ _ _ _
theorem slt (rd : Operand) (rs : Operand) (rt : Operand) : Statement (.slt rd rs rt) :=
  rWord_mask _ _ _ _ _
theorem mfhi (rd : Operand) : Statement (.mfhi rd) :=
  rWord_mask _ _ _ _ _
theorem mflo (rd : Operand) : Statement (.mflo rd) :=
  rWord_mask _ _ _ _ _
theorem mult (rs : Operand) (rt : Operand) : Statement (.mult rs rt) :=
  rWord_mask _ _ _ _ _
theorem multu (rs : Operand) (rt : Operand) : Statement (.multu rs rt) :=
  rWord_mask _ _ _ _ _
theorem div (rs : Operand) (rt : Operand) : Statement (.div rs rt) :=
  rWord_mask _ _ _ _ _
theorem divu (rs : Operand) (rt : Operand) : Statement (.divu rs rt) :=
  rWord_mask _ _ _ _ _
theorem sll (rd : Operand) (rt : Operand) (shamt : BitVec 5) : Statement (.sll rd rt shamt) :=
  rWord_mask _ _ _ _ _
theorem srl (rd : Operand) (rt : Operand) (shamt : BitVec 5) : Statement (.srl rd rt shamt) :=
  rWord_mask _ _ _ _ _
theorem sra (rd : Operand) (rt : Operand) (shamt : BitVec 5) : Statement (.sra rd rt shamt) :=
  rWord_mask _ _ _ _ _
theorem sllv (rd : Operand) (rt : Operand) (rs : Operand) : Statement (.sllv rd rt rs) :=
  rWord_mask _ _ _ _ _
theorem srlv (rd : Operand) (rt : Operand) (rs : Operand) : Statement (.srlv rd rt rs) :=
  rWord_mask _ _ _ _ _
theorem srav (rd : Operand) (rt : Operand) (rs : Operand) : Statement (.srav rd rt rs) :=
  rWord_mask _ _ _ _ _
theorem addi (rt : Operand) (rs : Operand) (imm : BitVec 16) : Statement (.addi rt rs imm) :=
  iWord_mask _ _ _ _
theorem addiu (rt : Operand) (rs : Operand) (imm : BitVec 16) : Statement (.addiu rt rs imm) :=
  iWord_mask _ _ _ _
theorem slti (rt : Operand) (rs : Operand) (imm : BitVec 16) : Statement (.slti rt rs imm) :=
  iWord_mask _ _ _ _
theorem andi (rt : Operand) (rs : Operand) (imm : BitVec 16) : Statement (.andi rt rs imm) :=
  iWord_mask _ _ _ _
theorem ori (rt : Operand) (rs : Operand) (imm : BitVec 16) : Statement (.ori rt rs imm) :=
  iWord_mask _ _ _ _
theorem xori (rt : Operand) (rs : Operand) (imm : BitVec 16) : Statement (.xori rt rs imm) :=
  iWord_mask _ _ _ _
theorem lw (tgt : Operand) (base : Operand) (imm : BitVec 16) : Statement (.lw tgt base imm) :=
  iWord_mask _ _ _ _
theorem sw (tgt : Operand) (base : Operand) (imm : BitVec 16) : Statement (.sw tgt base imm) :=
  iWord_mask _ _ _ _
theorem lb (tgt : Operand) (base : Operand) (imm : BitVec 16) : Statement (.lb tgt base imm) :=
  iWord_mask _ _ _ _
theorem lbu (tgt : Operand) (base : Operand) (imm : BitVec 16) : Statement (.lbu tgt base imm) :=
  iWord_mask _ _ _ _
theorem sb (tgt : Operand) (base : Operand) (imm : BitVec 16) : Statement (.sb tgt base imm) :=
  iWord_mask _ _ _ _
theorem jr (rs : Operand) : Statement (.jr rs) :=
  rWord_mask _ _ _ _ _
theorem j (target : BitVec 26) : Statement (.j target) :=
  jWord_mask _ _
theorem jal (target : BitVec 26) : Statement (.jal target) :=
  jWord_mask _ _
theorem beq (rs : Operand) (rt : Operand) (imm : BitVec 16) : Statement (.beq rs rt imm) :=
  iWord_mask _ _ _ _
theorem bne (rs : Operand) (rt : Operand) (imm : BitVec 16) : Statement (.bne rs rt imm) :=
  iWord_mask _ _ _ _
theorem bltz (rs : Operand) (imm : BitVec 16) : Statement (.bltz rs imm) :=
  iWord_mask _ _ _ _

end Sys2Proof.Laws.TableRow
end

