-- ==== Sys2Proof/Laws/Values.lean ====
section
/-! SUPPORT. What the computed values of Machine/Operands.lean are, as integers and patterns. -/

namespace Sys2Proof.Machine

/-- `wrap32` changes nothing in the range of an Int32. -/
theorem toInt_wrap32 {z : Int} (h1 : -(2 ^ 31) ≤ z) (h2 : z < 2 ^ 31) : (wrap32 z).toInt = z := by
  rw [wrap32, BitVec.toInt_ofInt]
  apply Int.bmod_eq_of_le <;> omega

@[simp] theorem toNat_shiftLeft (v : Word) (n : Nat) :
    (shiftLeft v n).toNat = v.toNat * 2 ^ n % 2 ^ 32 := by
  simp [shiftLeft, Nat.shiftLeft_eq]

@[simp] theorem toNat_shiftRight (v : Word) (n : Nat) :
    (shiftRight v n).toNat = v.toNat / 2 ^ n := by
  simp [shiftRight, Nat.shiftRight_eq_div_pow]

@[simp] theorem toNat_immWord (imm : BitVec 16) : (immWord imm).toNat = imm.toNat := by
  have := imm.isLt
  simp [immWord]
  omega

/-- The two halves of a 64-bit product give it back. -/
theorem productHi_productLo {p : Int} (h1 : -(2 ^ 63) ≤ p) (h2 : p < 2 ^ 63) :
    (productHi p).toInt * 2 ^ 32 + (productLo p).toNat = p := by
  have hl := (BitVec.ofInt 64 p).isLt
  have e1 : (productLo p).toNat = (BitVec.ofInt 64 p).toNat % 2 ^ 32 := by simp [productLo]
  have e2 : (productHi p).toNat = (BitVec.ofInt 64 p).toNat / 2 ^ 32 := by
    simp [productHi, Nat.shiftRight_eq_div_pow]
    omega
  have e3 : ((BitVec.ofInt 64 p).toNat : Int) = p % 2 ^ 64 := by
    simp [BitVec.toNat_ofInt]
    omega
  rw [BitVec.toInt_eq_toNat_cond, e1, e2]
  split <;> omega

/-- A product of two sources fits 64 bits. -/
theorem product_bounds (s : State) (a b : Operand) :
    -(2 ^ 62) < s.srcInt a * s.srcInt b ∧ s.srcInt a * s.srcInt b ≤ 2 ^ 62 := by
  have h1 := srcInt_bounds (s := s) a
  have h2 := srcInt_bounds (s := s) b
  constructor <;> nlinarith

/-- The remainder of R110 for DIV_ROUND = trunc. -/
theorem rem_trunc (a b : Int) : a - quot .trunc a b * b = a.tmod b := by
  rw [quot, Int.tmod_def]
  ring

/-- The remainder of R110 for DIV_ROUND = floor. -/
theorem rem_floor (a b : Int) : a - quot .floor a b * b = a.fmod b := by
  rw [quot, Int.fmod_def]
  ring

@[simp] theorem divLo_zero (r : DivRound) (a : Int) : divLo r a 0 = 0 := rfl
@[simp] theorem divHi_zero (r : DivRound) (a : Int) : divHi r a 0 = 0 := rfl

theorem divLo_of_ne {r : DivRound} {a b : Int} (h : b ≠ 0) : divLo r a b = wrap32 (quot r a b) :=
  if_neg h

theorem divHi_of_ne {r : DivRound} {a b : Int} (h : b ≠ 0) :
    divHi r a b = wrap32 (a - quot r a b * b) := if_neg h

end Sys2Proof.Machine
end

