-- ==== Sys2Proof/Tests/Slice0.lean ====
section
/-! SUPPORT. Tests of the model against spec/95_test_vectors.md, the well-formedness checks on
ill-formed terms, and for every statement with hypotheses a named witness that meets them. Expected
results are those of spec/95_test_vectors.md unless a comment names another place. -/

namespace Sys2Proof.Tests

open Sys2Proof.Machine

/-! ## Building states and looking at outcomes -/

/-- A running state with these parameters, `pc`, registers (signed decimal) and cells. -/
def build (c : Config) (pc : Int) (regs : List (RegCode × Int)) (cells : List (Nat × Cell)) : State :=
  let s := regs.foldl (fun s p => s.setReg p.1 (wrap32 p.2)) ({ State.construct c with pc := pc })
  cells.foldl (fun s p => s.putCell p.1 p.2) s

/-- Default parameters, `pc` 0. -/
def regs0 (regs : List (RegCode × Int)) : State := build Config.standard 0 regs []

/-- Default parameters, any `pc`. -/
def regsAt (pc : Int) (regs : List (RegCode × Int)) : State := build Config.standard pc regs []

/-- A data cell, signed decimal. -/
def dat (v : Int) : Cell := .data (wrap32 v)

/-- One step with the word placed at `pc`. -/
def run1 (w : Nat) (s : State) : Host.Outcome State Fault Refusal := step (s.withFetchWord 32 w)

/-- A view of the next state, if there is one. -/
def seen {α : Type} (f : State → α) : Host.Outcome State Fault Refusal → Option α
  | .next t => some (f t)
  | .fault _ => none
  | .refused _ => none

theorem exists_of_seen {α : Type} {f : State → α} {o : Host.Outcome State Fault Refusal} {a : α}
    (h : seen f o = some a) : ∃ t, o = .next t ∧ f t = a := by
  cases o with
  | next t => exact ⟨t, rfl, Option.some.inj h⟩
  | fault r => cases h
  | refused r => cases h

/-- A register and `pc` after the step. -/
def regPc (r : RegCode) : Host.Outcome State Fault Refusal → Option (Int × Int) :=
  seen fun t => ((t.reg r).toInt, t.pc)

/-- HI, LO and `pc` after the step. -/
def accPc : Host.Outcome State Fault Refusal → Option (Int × Int × Int) :=
  seen fun t => (t.hi.toInt, t.lo.toInt, t.pc)

/-- A cell, `pc` and the status after the step. -/
def cellPc (a : Nat) : Host.Outcome State Fault Refusal → Option (Cell × Int × Status) :=
  seen fun t => (t.cell a, t.pc, t.status)

/-- `pc` and the status after the step. -/
def pcStatus : Host.Outcome State Fault Refusal → Option (Int × Status) :=
  seen fun t => (t.pc, t.status)

/-! ## Well-formedness: each check refuses an ill-formed term -/

theorem test_wf_refuses_reg_zero_destination : Instr.wf (.add (.reg 0) (.reg 1) (.reg 2)) = false := by decide
theorem test_wf_refuses_reg_zero_source : Instr.wf (.bltz (.reg 0) 5) = false := by decide
theorem test_wf_accepts_absent : Instr.wf (.add .absent .absent (.reg 31)) = true := by decide
theorem test_config_wf_bounds :
    Config.wf ⟨0, .trunc, true⟩ = false ∧ Config.wf ⟨1, .trunc, true⟩ = true ∧
    Config.wf ⟨2147483647, .floor, false⟩ = true ∧ Config.wf ⟨2147483648, .trunc, true⟩ = false := by decide
theorem test_memory_wf_refuses :
    Memory.wf [(3, dat 0)] = false ∧ Memory.wf [(3, dat 1), (3, dat 2)] = false ∧
    Memory.wf [(4, dat 1), (3, dat 2)] = false ∧ Memory.wf [(3, dat 1), (4, dat 2)] = true := by decide

/-! ## Decoding: a word for every constructor, bit by bit from spec/30_encoding.md R60 to R75 -/

theorem test_decode_register_arith :
    decode 0b000000_00001_00010_00011_00000_100000 = .ok (.add (.reg 3) (.reg 1) (.reg 2)) ∧
    decode 0b000000_00001_00010_00011_00000_100010 = .ok (.sub (.reg 3) (.reg 1) (.reg 2)) ∧
    decode 0b000000_00001_00010_00011_00000_100001 = .ok (.addu (.reg 3) (.reg 1) (.reg 2)) ∧
    decode 0b000000_00001_00010_00011_00000_100011 = .ok (.subu (.reg 3) (.reg 1) (.reg 2)) ∧
    decode 0b000000_00001_00010_00011_00000_100100 = .ok (.and (.reg 3) (.reg 1) (.reg 2)) ∧
    decode 0b000000_00001_00010_00011_00000_100101 = .ok (.or (.reg 3) (.reg 1) (.reg 2)) ∧
    decode 0b000000_00001_00010_00011_00000_100110 = .ok (.xor (.reg 3) (.reg 1) (.reg 2)) ∧
    decode 0b000000_00001_00010_00011_00000_100111 = .ok (.nor (.reg 3) (.reg 1) (.reg 2)) ∧
    decode 0b000000_00001_00010_00011_00000_101010 = .ok (.slt (.reg 3) (.reg 1) (.reg 2)) := by decide

theorem test_decode_muldiv :
    decode 0b000000_00000_00000_00100_00000_010000 = .ok (.mfhi (.reg 4)) ∧
    decode 0b000000_00000_00000_00100_00000_010010 = .ok (.mflo (.reg 4)) ∧
    decode 0b000000_00001_00010_00000_00000_011000 = .ok (.mult (.reg 1) (.reg 2)) ∧
    decode 0b000000_00001_00010_00000_00000_011001 = .ok (.multu (.reg 1) (.reg 2)) ∧
    decode 0b000000_00001_00010_00000_00000_011010 = .ok (.div (.reg 1) (.reg 2)) ∧
    decode 0b000000_00001_00010_00000_00000_011011 = .ok (.divu (.reg 1) (.reg 2)) := by decide

theorem test_decode_shifts :
    decode 0b000000_00000_00010_00011_00100_000000 = .ok (.sll (.reg 3) (.reg 2) 4) ∧
    decode 0b000000_00000_00010_00011_11111_000010 = .ok (.srl (.reg 3) (.reg 2) 31) ∧
    decode 0b000000_00000_00010_00011_00011_000011 = .ok (.sra (.reg 3) (.reg 2) 3) ∧
    decode 0b000000_00001_00010_00011_00000_000100 = .ok (.sllv (.reg 3) (.reg 2) (.reg 1)) ∧
    decode 0b000000_00001_00010_00011_00000_000110 = .ok (.srlv (.reg 3) (.reg 2) (.reg 1)) ∧
    decode 0b000000_00001_00010_00011_00000_000111 = .ok (.srav (.reg 3) (.reg 2) (.reg 1)) := by decide

theorem test_decode_immediates :
    decode 0b001000_00001_00010_1111111111111111 = .ok (.addi (.reg 2) (.reg 1) 0xFFFF) ∧
    decode 0b001001_00001_00010_0000000000000101 = .ok (.addiu (.reg 2) (.reg 1) 5) ∧
    decode 0b001010_00001_00010_0000000000000000 = .ok (.slti (.reg 2) (.reg 1) 0) ∧
    decode 0b001100_00001_00010_0000111111110000 = .ok (.andi (.reg 2) (.reg 1) 0x0FF0) ∧
    decode 0b001101_00000_00010_1000000000000000 = .ok (.ori (.reg 2) .absent 0x8000) ∧
    decode 0b001110_00001_00010_0000111100001111 = .ok (.xori (.reg 2) (.reg 1) 0x0F0F) := by decide

theorem test_decode_memory :
    decode 0b100011_00101_00100_0000000000000011 = .ok (.lw (.reg 5) (.reg 4) 3) ∧
    decode 0b101011_00101_00100_0000000000000011 = .ok (.sw (.reg 5) (.reg 4) 3) ∧
    decode 0b100000_00101_00100_0000000000000001 = .ok (.lb (.reg 5) (.reg 4) 1) ∧
    decode 0b100100_00101_00100_0000000000000001 = .ok (.lbu (.reg 5) (.reg 4) 1) ∧
    decode 0b101000_00101_00100_0000000000000010 = .ok (.sb (.reg 5) (.reg 4) 2) := by decide

theorem test_decode_control :
    decode 0b000000_11111_00000_00000_00000_001000 = .ok (.jr (.reg 31)) ∧
    decode 0b000010_11111111111111111111111111 = .ok (.j 0x3FFFFFF) ∧
    decode 0b000011_00000000000000000000001001 = .ok (.jal 9) ∧
    decode 0b000100_00001_00001_0000000000000011 = .ok (.beq (.reg 1) (.reg 1) 3) ∧
    decode 0b000101_00001_00010_0000000000000011 = .ok (.bne (.reg 1) (.reg 2) 3) ∧
    decode 0b000001_00001_00000_0000000000000101 = .ok (.bltz (.reg 1) 5) := by decide

/-- Section 2.7: ignored bits, the reading of `lw` that is not MIPS's, the no-op. -/
theorem test_decode_section_2_7 :
    decode 0x00221FE0 = decode 0x00221820 ∧
    decode 0x8FA80004 = .ok (.lw (.reg 29) (.reg 8) 4) ∧
    decode 0x00000000 = .ok (.sll .absent .absent 0) ∧
    decode 0x03FFFFE0 = .ok (.add (.reg 31) (.reg 31) (.reg 31)) ∧
    decode 0x07FF0000 = .ok (.bltz (.reg 31) 0) := by decide

/-- Section 2.7: the illegal words. -/
theorem test_decode_refuses :
    decode 0x0000003F = .error (.unknownFunct 0x3F) ∧
    decode 0x0000002B = .error (.unknownFunct 0x2B) ∧
    decode 0x00000001 = .error (.unknownFunct 0x01) ∧
    decode 0x0000000C = .error (.unknownFunct 0x0C) ∧
    decode 0xFC000000 = .error (.unknownOpcode 0x3F) ∧
    decode 0x3C011234 = .error (.unknownOpcode 0x0F) ∧
    decode 0x70000000 = .error (.unknownOpcode 0x1C) := by decide

theorem test_decodeTableWord :
    decodeTableWord 32 0x00221820 = some (.add (.reg 3) (.reg 1) (.reg 2)) ∧
    decodeTableWord 32 0xFC000000 = none := by decide

theorem test_encode_words :
    encode (.add (.reg 3) (.reg 1) (.reg 2)) = 0x00221820 ∧
    encode (.lw (.reg 5) (.reg 4) 3) = 0x8CA40003 ∧
    encode (.jal 6) = 0x0C000006 := by decide

/-! ## One step per instruction -/

/-! ### Section 2.1 -/

theorem test_add_wraps : regPc 3 (run1 0x00221820 (regs0 [(1, 2147483647), (2, 1)])) = some (-2147483648, 1) := by decide
theorem test_add_same_register : regPc 1 (run1 0x00210820 (regs0 [(1, 21)])) = some (42, 1) := by decide
theorem test_sub_order : regPc 3 (run1 0x00221822 (regs0 [(1, 5), (2, 7)])) = some (-2, 1) := by decide
theorem test_sub_absent_source : regPc 3 (run1 0x00021822 (regs0 [(2, -2147483648)])) = some (-2147483648, 1) := by decide
theorem test_addu_takes_absolutes : regPc 3 (run1 0x00221821 (regs0 [(1, -5), (2, -7)])) = some (12, 1) := by decide
theorem test_addu_two_minima :
    regPc 3 (run1 0x00221821 (regs0 [(1, -2147483648), (2, -2147483648), (3, 9)])) = some (0, 1) := by decide
theorem test_subu_takes_absolutes : regPc 3 (run1 0x00221823 (regs0 [(1, -5), (2, 7)])) = some (-2, 1) := by decide
theorem test_subu_minimum : regPc 3 (run1 0x00021823 (regs0 [(2, -2147483648)])) = some (-2147483648, 1) := by decide
theorem test_and : regPc 3 (run1 0x00221824 (regs0 [(1, -16), (2, 255)])) = some (240, 1) := by decide
theorem test_or : regPc 3 (run1 0x00221825 (regs0 [(1, -2147483648), (2, 1)])) = some (-2147483647, 1) := by decide
theorem test_xor : regPc 3 (run1 0x00221826 (regs0 [(1, -1), (2, 65535)])) = some (-65536, 1) := by decide
theorem test_nor : regPc 3 (run1 0x00221827 (regs0 [(1, 5), (2, 2)])) = some (-8, 1) := by decide
theorem test_slt_writes_zero : regPc 3 (run1 0x0022182A (regs0 [(1, 1), (2, 2), (3, 99)])) = some (0, 1) := by decide

/-! ### Section 2.2 -/

theorem test_mfhi : regPc 4 (run1 0x00002010 ((regs0 []).setHiLo (wrap32 (-3)) 8)) = some (-3, 1) := by decide
theorem test_mflo : regPc 4 (run1 0x00002012 ((regs0 []).setHiLo (wrap32 (-3)) 8)) = some (8, 1) := by decide
theorem test_mult_negative : accPc (run1 0x00220018 (regs0 [(1, -6), (2, 7)])) = some (-1, -42, 1) := by decide
theorem test_mult_extremes :
    accPc (run1 0x00220018 (regs0 [(1, -2147483648), (2, 2147483647)])) = some (-1073741824, -2147483648, 1) := by decide
theorem test_multu_negative : accPc (run1 0x00220019 (regs0 [(1, -6), (2, 7)])) = some (0, 42, 1) := by decide
theorem test_multu_extremes :
    accPc (run1 0x00220019 (regs0 [(1, -2147483648), (2, 2147483647)])) = some (1073741823, -2147483648, 1) := by decide
theorem test_div_trunc : accPc (run1 0x0022001A (regs0 [(1, -7), (2, 2)])) = some (-1, -3, 1) := by decide
theorem test_div_floor :
    accPc (run1 0x0022001A (build ⟨127, .floor, true⟩ 0 [(1, 7), (2, -2)] [])) = some (-1, -4, 1) := by decide
theorem test_divu_absolutes : accPc (run1 0x0022001B (regs0 [(1, -7), (2, 2)])) = some (1, 3, 1) := by decide
theorem test_divu_by_zero :
    accPc (run1 0x0022001B ((regs0 [(1, 5)]).setHiLo 9 9)) = some (0, 0, 1) := by decide

/-! ### Section 2.3 -/

theorem test_sll : regPc 3 (run1 0x00021FC0 (regs0 [(2, -1)])) = some (-2147483648, 1) := by decide
theorem test_srl : regPc 3 (run1 0x00021842 (regs0 [(2, -1)])) = some (2147483647, 1) := by decide
theorem test_sra_is_logical : regPc 3 (run1 0x00021843 (regs0 [(2, -8)])) = some (2147483644, 1) := by decide
theorem test_sllv_roles : regPc 3 (run1 0x00221804 (regs0 [(1, 4), (2, 3)])) = some (48, 1) := by decide
theorem test_sllv_amount_modulo : regPc 3 (run1 0x00221804 (regs0 [(1, 33), (2, 1)])) = some (2, 1) := by decide
theorem test_srlv : regPc 3 (run1 0x00221806 (regs0 [(1, 4), (2, -16)])) = some (268435455, 1) := by decide
theorem test_srav_is_logical : regPc 3 (run1 0x00221807 (regs0 [(1, 63), (2, -2147483648)])) = some (1, 1) := by decide

/-! ### Section 2.4 -/

theorem test_addi_unsigned : regPc 2 (run1 0x2022FFFF (regs0 [(1, 10)])) = some (65545, 1) := by decide
theorem test_addi_wraps : regPc 2 (run1 0x20220001 (regs0 [(1, 2147483647)])) = some (-2147483648, 1) := by decide
theorem test_addiu_absolute : regPc 2 (run1 0x24220005 (regs0 [(1, -10)])) = some (15, 1) := by decide
theorem test_addiu_wraps : regPc 2 (run1 0x2422FFFF (regs0 [(1, 2147483647)])) = some (-2147418114, 1) := by decide
theorem test_slti_negative : regPc 2 (run1 0x28220000 (regs0 [(1, -1)])) = some (1, 1) := by decide
theorem test_slti_unsigned_constant : regPc 2 (run1 0x2822FFFF (regs0 [(1, 65535), (2, 9)])) = some (0, 1) := by decide
theorem test_andi : regPc 2 (run1 0x30220FF0 (regs0 [(1, 305419896)])) = some (1648, 1) := by decide
theorem test_ori : regPc 2 (run1 0x34028000 (regs0 [])) = some (32768, 1) := by decide
theorem test_xori : regPc 2 (run1 0x3822FFFF (regs0 [(1, -1)])) = some (-65536, 1) := by decide

/-! ### Section 2.5 -/

theorem test_lw_top_cell :
    regPc 5 (run1 0x8CA40064 (build Config.standard 0 [(4, 26)] [(126, dat 6)])) = some (6, 1) := by decide
theorem test_lw_own_cell : pcStatus (run1 0x8CA00000 (regs0 [(5, 9)])) = some (0, .faulted .instrCellRead) := by decide
theorem test_sw_absent_source :
    cellPc 13 (run1 0xAC040003 (build Config.standard 0 [(4, 10)] [(13, dat 5)])) = some (dat 0, 1, .running) := by decide
theorem test_sw_out_of_range :
    pcStatus (run1 0xACA40064 (regs0 [(4, 27), (5, 1)])) = some (0, .faulted .memoryFault) := by decide
theorem test_lb_sign_extends :
    regPc 5 (run1 0x80A40001 (build Config.standard 0 [(4, 10)] [(11, dat (-2130706433))])) = some (-128, 1) := by decide
theorem test_lb_out_of_range : pcStatus (run1 0x80A400BE (regs0 [(4, 10)])) = some (0, .faulted .memoryFault) := by decide
theorem test_lbu_sign_extends_too :
    regPc 5 (run1 0x90A40001 (build Config.standard 0 [(4, 10)] [(11, dat (-2130706433))])) = some (-128, 1) := by decide
theorem test_sb_swapped :
    cellPc 32 (run1 0xA0A40002 (regs0 [(5, 30), (4, -2128465084)])) = some (dat (-127), 1, .running) := by decide
theorem test_sb_not_swapped :
    cellPc 32 (run1 0xA0A40002 (build ⟨127, .trunc, false⟩ 0 [(4, 30), (5, -2128465084)] [])) =
      some (dat (-127), 1, .running) := by decide

/-! ### Section 2.6 -/

theorem test_jr : pcStatus (run1 0x03E00008 (regsAt 20 [(31, 5)])) = some (6, .running) := by decide
theorem test_jr_negative : pcStatus (run1 0x00400008 (regsAt 20 [(2, -2)])) = some (-1, .running) := by decide
theorem test_j_all_bits : pcStatus (run1 0x0BFFFFFF (regsAt 4 [])) = some (67108864, .running) := by decide
theorem test_j_loop : pcStatus (run1 0x08000004 (regsAt 5 [])) = some (5, .running) := by decide
theorem test_jal : regPc 31 (run1 0x0C000009 (regsAt 4 [])) = some (5, 10) := by decide
theorem test_beq_taken : pcStatus (run1 0x10210003 (regsAt 10 [(1, 8)])) = some (14, .running) := by decide
theorem test_beq_not_taken : pcStatus (run1 0x10200007 (regsAt 10 [(1, 3)])) = some (11, .running) := by decide
theorem test_bne_taken : pcStatus (run1 0x1422FFFF (regsAt 10 [(1, 5), (2, 6)])) = some (65546, .running) := by decide
theorem test_bne_not_taken : pcStatus (run1 0x14210003 (regsAt 10 [(1, 8)])) = some (11, .running) := by decide
theorem test_bltz_taken : pcStatus (run1 0x04210005 (regsAt 10 [(1, -2147483648)])) = some (16, .running) := by decide
theorem test_bltz_absent : pcStatus (run1 0x04000005 (regsAt 10 [])) = some (11, .running) := by decide

/-! ## The machine around the instructions -/

/-- T6 of part 1: untouched data halts, and nothing else changes. -/
theorem test_halt_on_untouched : pcStatus (step State.reset) = some (0, .halted) := by decide
/-- spec/40_execution_cycle.md R84: a fetch outside the memory. -/
theorem test_fetch_negative : pcStatus (step (regsAt (-1) [])) = some (-1, .faulted .memoryFault) := by decide
/-- spec/40_execution_cycle.md R89. -/
theorem test_no_step_after_halt : pcStatus (step State.reset.halt) = none := by decide
/-- An illegal word placed for the fetch leaves what a failed load leaves (R172). -/
theorem test_illegal_word_placed : (State.reset.withFetchWord 32 0xFC000000).status = .faulted .decodeError := by decide

/-- P1 of part 3, the load: three records, `lp` 3. -/
theorem test_load_p1 :
    let s := State.reset.loadProgram [0x20080005, 0x20090007, 0x01095020]
    s.lp = 3 ∧ s.status = .running ∧ s.cell 2 = .instr (.add (.reg 10) (.reg 8) (.reg 9)) ∧
      s.cell 3 = .data 0 := by decide

/-- Load overflow (section 2.7), with one cell: the second word faults, `lp` stays 1. -/
theorem test_load_overflow :
    let s := (State.construct ⟨1, .trunc, true⟩).loadProgram [0x20080005, 0x20090007, 0x01095020]
    s.lp = 1 ∧ s.status = .faulted .memoryFault ∧ s.cell 1 = .data 0 := by decide

/-- spec/70_reset_and_hazards.md R174: only nonzero data cells, in index order. -/
theorem test_observe :
    (build Config.standard 0 [] [(9, dat 4), (0, .instr (.jr .absent)), (3, dat (-1))]).observe.cells =
      [(3, 0xFFFFFFFF), (9, 4)] := by decide

/-! ## Witnesses: concrete values that meet the hypotheses of each statement, clause by clause -/

/-- A word of every row, in the table's order, with the top register of its fields set. -/
theorem witness_EveryTableRowDecodes :
    ([(0x00221820, 0x20), (0x00221822, 0x22), (0x00221821, 0x21), (0x00221823, 0x23), (0x00221824, 0x24),
      (0x00221825, 0x25), (0x00221826, 0x26), (0x00221827, 0x27), (0x0022182A, 0x2A), (0x0000F810, 0x10),
      (0x0000F812, 0x12), (0x03FF0018, 0x18), (0x03FF0019, 0x19), (0x03FF001A, 0x1A), (0x03FF001B, 0x1B),
      (0x00021FC0, 0x00), (0x00021FC2, 0x02), (0x00021FC3, 0x03), (0x00221804, 0x04), (0x00221806, 0x06),
      (0x00221807, 0x07), (0x03E00008, 0x08)] : List (Word × Word)).all
        (fun p => p.1 &&& 0xFC00003F == p.2) = true ∧
    ([(0x2022FFFF, 0x20000000), (0x2422FFFF, 0x24000000), (0x2822FFFF, 0x28000000), (0x3022FFFF, 0x30000000),
      (0x3422FFFF, 0x34000000), (0x3822FFFF, 0x38000000), (0x8CA40003, 0x8C000000), (0xACA40003, 0xAC000000),
      (0x80A40001, 0x80000000), (0x90A40001, 0x90000000), (0xA0A40002, 0xA0000000), (0x0BFFFFFF, 0x08000000),
      (0x0FFFFFFF, 0x0C000000), (0x10210003, 0x10000000), (0x14220003, 0x14000000), (0x07FF0000, 0x04000000)] :
        List (Word × Word)).all (fun p => p.1 &&& 0xFC000000 == p.2) = true := by decide

theorem witness_DecodeRefusesExactlyTheIllegalWords :
    decode 0x0000003F = .error (.unknownFunct 0x3F) ∧ decode 0xFFFFFFFF = .error (.unknownOpcode 0x3F) := by decide

theorem witness_DecodeEncodeRoundTrip :
    Instr.wf (.sllv (.reg 31) .absent (.reg 1)) = true ∧ Instr.wf (.j 0x3FFFFFF) = true := by decide

theorem witness_EncodeRebuildsTheKeptBits :
    decode 0x07FF0000 = .ok (.bltz (.reg 31) 0) ∧ decode 0x00221FE0 = .ok (.add (.reg 3) (.reg 1) (.reg 2)) := by
  decide

theorem witness_IgnoredBitsChangeNothing :
    decode 0x07FF0000 = .ok (.bltz (.reg 31) 0) ∧
    (0x07E00000 : Word) &&& (Instr.bltz (.reg 31) 0).keptBits =
      (0x07FF0000 : Word) &&& (Instr.bltz (.reg 31) 0).keptBits := by decide

theorem witness_DecodedRecordsNeverNameRegisterZero :
    decode 0 = .ok (.sll .absent .absent 0) ∧ decode 0x10200007 = .ok (.beq (.reg 1) .absent 7) := by decide

theorem witness_ImmediateArithmeticFields :
    decode 0x2022FFFF = .ok (.addi (.reg 2) (.reg 1) 0xFFFF) ∧
    decode 0x2422FFFF = .ok (.addiu (.reg 2) (.reg 1) 0xFFFF) ∧
    decode 0x2822FFFF = .ok (.slti (.reg 2) (.reg 1) 0xFFFF) ∧
    decode 0x3022FFFF = .ok (.andi (.reg 2) (.reg 1) 0xFFFF) ∧
    decode 0x34028000 = .ok (.ori (.reg 2) .absent 0x8000) ∧
    decode 0x3822FFFF = .ok (.xori (.reg 2) (.reg 1) 0xFFFF) := by decide

theorem witness_ShiftAmountField_shifts :
    decode 0x00021FC0 = .ok (.sll (.reg 3) (.reg 2) 31) ∧ decode 0x00021FC2 = .ok (.srl (.reg 3) (.reg 2) 31) ∧
    decode 0x00021803 = .ok (.sra (.reg 3) (.reg 2) 0) := by decide

theorem witness_ShiftAmountField_others :
    BitVec.extractLsb' 26 6 (0x00221820 : Word) = 0#6 ∧
    decode 0x00221820 = .ok (.add (.reg 3) (.reg 1) (.reg 2)) ∧
    (∀ rd rt shamt, Instr.add (.reg 3) (.reg 1) (.reg 2) ≠ .sll rd rt shamt ∧
      Instr.add (.reg 3) (.reg 1) (.reg 2) ≠ .srl rd rt shamt ∧
      Instr.add (.reg 3) (.reg 1) (.reg 2) ≠ .sra rd rt shamt) ∧
    (0x00221FE0 : Word) &&& 0xFFFFF83F = (0x00221820 : Word) &&& 0xFFFFF83F :=
  ⟨by decide, by decide, fun _ _ _ => ⟨nofun, nofun, nofun⟩, by decide⟩

theorem witness_OperandsReadAndWrite : (0 : BitVec 5) = 0 ∧ (31 : BitVec 5) ≠ 0 := by decide

/-- A record in cell 0, data in cell 126: a state for the clauses about accesses. -/
def accessState : State :=
  build Config.standard 0 [(4, 26), (6, 27), (7, -1)] [(0, .instr (.jr (.reg 31))), (126, dat 6)]

theorem witness_LoadAccess :
    (127 : Int) ≥ accessState.config.memWords ∧ 126 < accessState.config.memWords ∧
    accessState.cell 126 = .data 6 ∧ accessState.cell 0 = .instr (.jr (.reg 31)) := by decide

theorem witness_StoreAccess :
    accessState.mem.wf = true ∧ (126 : Int) < accessState.config.memWords ∧
    (accessState.config.memWords : Int) ≤ 127 := by decide

/-- A record at `pc`, which is the last cell. -/
def lastCell : State := build Config.standard 126 [] [(126, .instr (.jr (.reg 31)))]

theorem witness_StepRunsTheFetchedInstruction :
    lastCell.status = .running ∧ 0 ≤ lastCell.pc ∧ lastCell.pc < lastCell.config.memWords ∧
    lastCell.cell lastCell.pc.toNat = .instr (.jr (.reg 31)) ∧ lastCell.mem.wf = true ∧
    decode 0x0BFFFFFF = .ok (.j 0x3FFFFFF) := by decide

theorem witness_FetchOutOfRangeFaults :
    ((regsAt (-1) []).status = .running ∧ (regsAt (-1) []).pc < 0) ∧
    ((regsAt 127 []).status = .running ∧ ((regsAt 127 []).config.memWords : Int) ≤ (regsAt 127 []).pc) := by decide

/-- Data, not zero, at `pc`. -/
def atData : State := build Config.standard 126 [] [(126, dat 9)]

theorem witness_DataCellHaltsTheRun :
    (atData.status = .running ∧ 0 ≤ atData.pc ∧ atData.pc < atData.config.memWords ∧
      atData.cell atData.pc.toNat = .data 9) ∧
    ∃ t, step State.reset = .next t ∧ t.status = .halted :=
  ⟨by decide, exists_of_seen (f := State.status) (by decide)⟩

/-- Every clause: each control transfer, both ways of each branch, and another instruction. -/
theorem witness_UniformAdvance :
    (regsAt 20 [(1, -1)]).status = .running ∧
    ∀ i ∈ [Instr.jr (.reg 1), .j 0x3FFFFFF, .jal 0, .beq .absent .absent 0xFFFF, .beq (.reg 1) .absent 3,
        .bne (.reg 1) .absent 3, .bne .absent .absent 3, .bltz (.reg 1) 3, .bltz .absent 3,
        .add (.reg 3) (.reg 1) (.reg 2)],
      ∃ t, exec i (regsAt 20 [(1, -1)]) = .next t ∧ t.status = .running :=
  ⟨by decide, fun i hi => exists_of_seen (f := State.status) (by revert i; decide)⟩

/-- A machine that meets the invariant: one record loaded, about to run. -/
theorem inv_loaded : (State.reset.placeAtPc (.addi (.reg 8) .absent 5)).Inv where
  configWf := by decide
  canonical := by decide
  zeroReg := by decide
  loadBound := by decide
  outside := fun a h => by
    have h : 127 ≤ a := h
    rw [placeAtPc_cell (by decide), if_neg (show ¬a = State.reset.pc.toNat from fun e => by have e : a = 0 := e; omega)]
    rfl
  program := fun a i h => by
    rw [placeAtPc_cell (by decide)] at h
    split at h
    · cases h
      subst_vars
      decide
    · cases h
  pcRange := by decide

theorem witness_StepKeepsTheInvariant :
    ∃ s t, s.Inv ∧ step s = .next t ∧ t.reg 8 = 5 :=
  ⟨_, (exists_of_seen (f := fun t => t.reg 8) (by decide)).choose, inv_loaded,
    (exists_of_seen (f := fun t => t.reg 8) (by decide)).choose_spec⟩

theorem witness_ResetMeetsTheInvariant :
    Config.wf ⟨1, .trunc, true⟩ = true ∧ Config.wf ⟨2 ^ 31 - 1, .floor, false⟩ = true := by decide

theorem witness_LoadKeepsTheInvariant : ∃ s : State, s.Inv := ⟨_, inv_loaded⟩

theorem witness_RegisterZeroIsNeverWritten :
    Instr.wf (.add .absent (.reg 4) (.reg 6)) = true ∧
    ∃ t, exec (.add .absent (.reg 4) (.reg 6)) accessState = .next t ∧ t.reg 0 = 0 :=
  ⟨by decide, exists_of_seen (f := fun t => t.reg 0) (by decide)⟩

/-- A store over the record in cell 0 runs, and the record in cell 1 is still there. -/
def overwrite : State :=
  build Config.standard 1 [(5, 7)] [(0, .instr (.jr (.reg 31))), (1, .instr (.sw (.reg 5) .absent 0))]

theorem witness_RecordsAreNeverMadeOrEdited :
    overwrite.mem.wf = true ∧ ∃ t, step overwrite = .next t ∧
      (t.cell 0, t.cell 1) = (.data 7, .instr (.sw (.reg 5) .absent 0)) :=
  ⟨by decide, exists_of_seen (f := fun t => (t.cell 0, t.cell 1)) (by decide)⟩

theorem witness_AccumulatorsBelongToMulDivAndMoves :
    (familyOf (.mfhi (.reg 4)) ≠ .mulDiv ∧ ∃ t, exec (.mfhi (.reg 4)) accessState = .next t ∧ t.pc = 1) ∧
    familyOf (.mult (.reg 4) (.reg 6)) = .mulDiv ∧
    (familyOf (.addi (.reg 4) .absent 3) ≠ .mulDiv ∧ familyOf (.addi (.reg 4) .absent 3) ≠ .accMove ∧
      ∃ t, exec (.addi (.reg 4) .absent 3) accessState = .next t ∧ t.pc = 1) :=
  ⟨⟨by decide, exists_of_seen (f := State.pc) (by decide)⟩, by decide, by decide, by decide,
    exists_of_seen (f := State.pc) (by decide)⟩

/-- A load from the record's own cell, so that the step faults. -/
def ownCell : State := build Config.standard 0 [] [(0, .instr (.lw (.reg 5) .absent 0))]

theorem witness_FaultChangesOnlyTheStatus :
    (∃ t, step ownCell = .next t ∧ t.status = .faulted .instrCellRead) ∧
    ∃ t, step (regsAt 127 []) = .next t ∧ t.status = .faulted .memoryFault :=
  ⟨exists_of_seen (f := State.status) (by decide), exists_of_seen (f := State.status) (by decide)⟩

theorem witness_ThingsThatAreNotFaults :
    accessState.src .absent = 0 ∧ accessState.src (.reg 2) = 0 ∧
    (familyOf (.div (.reg 4) .absent) ≠ .load ∧ familyOf (.div (.reg 4) .absent) ≠ .store) ∧
    (0 ≤ (accessState.src .absent).toInt + (0 : BitVec 16).toNat ∧
      (accessState.src .absent).toInt + (0 : BitVec 16).toNat < accessState.config.memWords ∧
      accessState.cell ((accessState.src .absent).toInt + (0 : BitVec 16).toNat).toNat = .instr (.jr (.reg 31))) ∧
    accessState.sbAddrOperand .absent (.reg 4) = .absent ∧
    (0 ≤ (accessState.src (.reg 4)).toInt + (100 : BitVec 16).toNat ∧
      (accessState.src (.reg 4)).toInt + (100 : BitVec 16).toNat < accessState.config.memWords ∧
      accessState.cell ((accessState.src (.reg 4)).toInt + (100 : BitVec 16).toNat).toNat = .data 6) ∧
    (atData.status = .running ∧ 0 ≤ atData.pc ∧ atData.pc < atData.config.memWords ∧
      atData.cell atData.pc.toNat = .data 9) ∧
    ∃ t, step ownCell = .next t ∧ t.status = .faulted .instrCellRead :=
  ⟨by decide, by decide, by decide, by decide, by decide, by decide, by decide,
    exists_of_seen (f := State.status) (by decide)⟩

/-- Index 127 through register 6, index -1 through register 7; for `sb` through the address operand. -/
theorem witness_FailedAddressCheckChangesNothing :
    (accessState.config.memWords : Int) ≤ (accessState.src (.reg 6)).toInt + (100 : BitVec 16).toNat ∧
    (accessState.src (.reg 7)).toInt + (0 : BitVec 16).toNat < 0 ∧
    (accessState.config.memWords : Int) ≤
      (accessState.src (accessState.sbAddrOperand (.reg 6) .absent)).toInt + (100 : BitVec 16).toNat := by decide

theorem witness_PcAfterATransfer :
    (familyOf (.beq .absent .absent 0xFFFF) = .branch ∧
      ∃ t, exec (.beq .absent .absent 0xFFFF) accessState = .next t ∧ t.pc = 65536) ∧
    (∃ t, exec (.j 0x3FFFFFF) accessState = .next t ∧ t.pc = 2 ^ 26) ∧
    (∃ t, exec (.jal 0) accessState = .next t ∧ t.pc = 1) ∧
    ∃ t, exec (.jr (.reg 7)) accessState = .next t ∧ t.pc = 0 :=
  ⟨⟨by decide, exists_of_seen (f := State.pc) (by decide)⟩, exists_of_seen (f := State.pc) (by decide),
    exists_of_seen (f := State.pc) (by decide), exists_of_seen (f := State.pc) (by decide)⟩

theorem witness_StepKeepsLoadPointerAndParameters : ∃ t, step overwrite = .next t ∧ t.pc = 2 :=
  exists_of_seen (f := State.pc) (by decide)

/-- A full load of two cells, and the empty load. -/
theorem witness_LoadedProgramFillsTheFirstCells :
    ([0x20080005, 0x0BFFFFFF] : List Word).map decode =
      ([Instr.addi (.reg 8) .absent 5, .j 0x3FFFFFF]).map Except.ok ∧
    ([0x20080005, 0x0BFFFFFF] : List Word).length ≤ (⟨2, .trunc, true⟩ : Config).memWords ∧
    ([] : List Word).map decode = ([] : List Instr).map Except.ok := by decide

theorem witness_FailedLoadEndsTheRun :
    (State.reset.status = .running ∧ decode 0xFC000000 = .error (.unknownOpcode 0x3F)) ∧
    (decode 0x20080005 = .ok (.addi (.reg 8) .absent 5) ∧
      (State.construct ⟨0, .trunc, true⟩).config.memWords ≤ (State.construct ⟨0, .trunc, true⟩).lp) ∧
    (let s := (State.construct ⟨1, .trunc, true⟩).loadWord 0x20080005
     s.status = .running ∧ s.config.memWords ≤ s.lp) := by decide

theorem witness_ObservationShowsNonzeroDataCells :
    accessState.mem.wf = true ∧ accessState.cell 126 = .data 6 := by decide

theorem witness_CallThenReturnSkipsACell :
    lastCell.config.wf = true ∧ 0 ≤ lastCell.pc ∧ lastCell.pc < lastCell.config.memWords ∧
    (lastCell.setReg 31 127).reg 31 = 127 := by decide

/-- -7 by 2 and 7 by -2: the remainder is not zero under either rounding; a zero divisor. -/
theorem witness_DivQuotientAndRemainder :
    let s := regs0 [(1, -7), (2, 2)]
    let f := build ⟨127, .floor, true⟩ 0 [(1, 7), (2, -2)] []
    (s.src .absent).toInt = 0 ∧ (s.src (.reg 2)).toInt ≠ 0 ∧ s.config.divRound = .trunc ∧
    f.config.divRound = .floor ∧ (f.src (.reg 2)).toInt ≠ 0 := by decide

theorem witness_DivuQuotientAndRemainder :
    let s := regs0 [(1, -2147483648), (2, -1)]
    (s.src .absent).toInt = 0 ∧ (s.src (.reg 2)).toInt ≠ 0 := by decide

/-- Index 126, the last cell. -/
theorem witness_LoadWordResult :
    0 ≤ (accessState.src (.reg 4)).toInt + (100 : BitVec 16).toNat ∧
    (accessState.src (.reg 4)).toInt + (100 : BitVec 16).toNat < accessState.config.memWords ∧
    accessState.cell ((accessState.src (.reg 4)).toInt + (100 : BitVec 16).toNat).toNat = .data 6 := by decide

/-- Index 126 again, and index 0 of a memory whose first cell is data. -/
theorem witness_LoadByteResults :
    (0 ≤ (accessState.src (.reg 4)).toInt + (100 : BitVec 16).toNat ∧
      (accessState.src (.reg 4)).toInt + (100 : BitVec 16).toNat < accessState.config.memWords ∧
      accessState.cell ((accessState.src (.reg 4)).toInt + (100 : BitVec 16).toNat).toNat = .data 6) ∧
    State.reset.cell ((State.reset.src .absent).toInt + (0 : BitVec 16).toNat).toNat = .data 0 := by decide

theorem witness_StoreWordResult :
    accessState.mem.wf = true ∧
    (0 ≤ (accessState.src (.reg 4)).toInt + (100 : BitVec 16).toNat ∧
      (accessState.src (.reg 4)).toInt + (100 : BitVec 16).toNat < accessState.config.memWords) ∧
    (0 ≤ (accessState.src (.reg 7)).toInt + (1 : BitVec 16).toNat ∧
      (accessState.src (.reg 7)).toInt + (1 : BitVec 16).toNat < accessState.config.memWords) := by decide

/-- The same state with the other value of SB_SWAPPED. -/
def accessStateStraight : State := { accessState with config := ⟨127, .trunc, false⟩ }

theorem witness_StoreByteResult :
    (accessState.mem.wf = true ∧ accessState.config.sbSwapped = true ∧
      0 ≤ (accessState.src (.reg 4)).toInt + (100 : BitVec 16).toNat ∧
      (accessState.src (.reg 4)).toInt + (100 : BitVec 16).toNat < accessState.config.memWords) ∧
    (accessStateStraight.mem.wf = true ∧ accessStateStraight.config.sbSwapped = false ∧
      0 ≤ (accessStateStraight.src (.reg 4)).toInt + (100 : BitVec 16).toNat ∧
      (accessStateStraight.src (.reg 4)).toInt + (100 : BitVec 16).toNat <
        accessStateStraight.config.memWords) := by decide

theorem witness_LoadFaults :
    (accessState.config.memWords : Int) ≤ (accessState.src (.reg 6)).toInt + (100 : BitVec 16).toNat ∧
    (accessState.src (.reg 7)).toInt + (0 : BitVec 16).toNat < 0 ∧
    (0 ≤ (accessState.src (.reg 7)).toInt + (1 : BitVec 16).toNat ∧
      (accessState.src (.reg 7)).toInt + (1 : BitVec 16).toNat < accessState.config.memWords ∧
      accessState.cell ((accessState.src (.reg 7)).toInt + (1 : BitVec 16).toNat).toNat =
        .instr (.jr (.reg 31))) := by decide

theorem witness_StoreFaults :
    (accessState.config.memWords : Int) ≤ (accessState.src (.reg 6)).toInt + (100 : BitVec 16).toNat ∧
    (Operand.reg 6 = (if accessState.config.sbSwapped then .reg 6 else .reg 4)) ∧
    (Operand.reg 7 = (if accessStateStraight.config.sbSwapped then .reg 6 else .reg 7)) ∧
    (accessStateStraight.src (.reg 7)).toInt + (0 : BitVec 16).toNat < 0 := by decide

end Sys2Proof.Tests
end

/-! The statements on the state of the machine (spec/10_state.md), and the facts they rest on. -/

namespace Sys2Proof.Machine

section StateFacts

variable {s t : State} {i : Instr}

/-! ### The uniform advance -/

/-- Two sources agree as integers when their patterns agree (spec/00_scope.md R8). -/
@[simp] theorem sameSource_eq_decide (rs rt : Operand) :
    s.sameSource rs rt = decide (s.src rs = s.src rt) := by
  simp [State.sameSource, srcInt_eq, BitVec.toInt_inj]

@[simp] theorem negSource_eq_decide (rs : Operand) :
    s.negSource rs = decide ((s.src rs).toInt < 0) := rfl

theorem branch_done_pc {b : Bool} {imm : BitVec 16} (h : (s.branch b imm).done = .next t) :
    t.pc = if b then s.pc + imm.toNat + 1 else s.pc + 1 := by
  obtain ⟨u, hu, hgo⟩ := branch_answers s b imm
  obtain rfl : u = t := Host.Outcome.next.inj (hu.symm.trans h)
  rw [hgo.pc]
  cases b <;> rfl

/-- Outside the control transfers, only a fault keeps `pc` from advancing by one. -/
theorem ExecEffect.pc_of_not_transfer (h : ExecEffect i s t) (ht : t.status = .running)
    (hj : familyOf i ≠ .jump) (hb : familyOf i ≠ .branch) : t.pc = s.pc + 1 := by
  cases h with
  | raised r => cases ht
  | wroteReg o v => simp
  | wroteAcc | stored => rfl
  | went p hf => exact absurd hf (not_or.2 ⟨hj, hb⟩)
  | linked p v hf => exact absurd hf hj

/-! ### Cells after a step -/

/-- The only write to memory is a store's, which makes its whole cell data (spec/20_memory.md R42). -/
theorem ExecEffect.cell_kept_or_data (h : ExecEffect i s t) (hw : s.mem.wf = true) (a : Nat) :
    t.cell a = s.cell a ∨ ∃ v, t.cell a = .data v := by
  cases h with
  | raised | wroteAcc | went | linked => exact .inl rfl
  | wroteReg o v => exact .inl (by simp)
  | stored b v =>
    rw [advance_cell, putCell_cell hw]
    split
    · exact .inr ⟨v, rfl⟩
    · exact .inl rfl

theorem step_cell_kept_or_data (hw : s.mem.wf = true) (h : step s = .next t) (a : Nat) :
    t.cell a = s.cell a ∨ ∃ v, t.cell a = .data v := by
  obtain ⟨-, ⟨-, rfl⟩ | ⟨-, -, rfl⟩ | ⟨-, i, -, hexec⟩⟩ := step_next h
  · exact .inl rfl
  · exact .inl rfl
  · exact (exec_effect hexec).cell_kept_or_data hw a

/-! ### HI and LO -/

/-- Only multiply and divide write HI and LO (spec/10_state.md R22). -/
theorem ExecEffect.accKept (h : ExecEffect i s t) (hf : familyOf i ≠ .mulDiv) : AccKept s t := by
  cases h with
  | raised | stored | went | linked => exact ⟨rfl, rfl⟩
  | wroteReg o v => simp [AccKept]
  | wroteAcc _ _ hf' => exact absurd hf' hf

/-! `State.setHiLo` exchanges the accumulators. The operands and the checks do not show the
exchange, and each way an instruction ends commutes with it. -/

variable {hi lo : Word}

@[simp] theorem setHiLo_setHiLo (h l : Word) :
    (s.setHiLo h l).setHiLo hi lo = s.setHiLo hi lo := rfl

@[simp] theorem setHiLo_src (o : Operand) : (s.setHiLo hi lo).src o = s.src o := by cases o <;> rfl

@[simp] theorem setHiLo_srcInt (o : Operand) : (s.setHiLo hi lo).srcInt o = s.srcInt o := by
  simp [srcInt_eq]

@[simp] theorem setHiLo_srcAbs (o : Operand) : (s.setHiLo hi lo).srcAbs o = s.srcAbs o := by
  simp [State.srcAbs]

@[simp] theorem setHiLo_dst (o : Operand) (v : Word) :
    (s.setHiLo hi lo).dst o v = (s.dst o v).setHiLo hi lo := by cases o <;> rfl

@[simp] theorem setHiLo_memRead (a : Int) : (s.setHiLo hi lo).memRead a = s.memRead a := rfl

@[simp] theorem setHiLo_memWrite (a : Int) (v : Word) :
    (s.setHiLo hi lo).memWrite a v = (s.memWrite a v).map (·.setHiLo hi lo) := by
  cases h : s.memWrite a v with
  | ok t =>
    obtain ⟨ha, rfl⟩ := memWrite_ok.1 h
    exact memWrite_ok.2 ⟨ha, rfl⟩
  | error r =>
    obtain ⟨ha, rfl⟩ := memWrite_error.1 h
    exact memWrite_error.2 ⟨ha, rfl⟩

theorem dst_done_setHiLo {o : Operand} {v : Word} (h : (s.dst o v).done = .next t) :
    ((s.setHiLo hi lo).dst o v).done = .next (t.setHiLo hi lo) := by
  obtain rfl := Host.Outcome.next.inj h
  rw [setHiLo_dst]
  rfl

theorem branch_done_setHiLo {b : Bool} {imm : BitVec 16} (h : (s.branch b imm).done = .next t) :
    ((s.setHiLo hi lo).branch b imm).done = .next (t.setHiLo hi lo) := by
  obtain rfl := Host.Outcome.next.inj h
  cases b <;> rfl

theorem doneOr_setHiLo {e : Except Raised State} (h : s.doneOr e = .next t) :
    (s.setHiLo hi lo).doneOr (e.map (·.setHiLo hi lo)) = .next (t.setHiLo hi lo) := by
  obtain ⟨u, rfl, rfl⟩ | ⟨r, rfl, rfl⟩ := doneOr_next.1 h
  · rfl
  · rfl

theorem load_setHiLo {o : Operand} {a : Int} {f : Word → Word}
    (h : s.doneOr ((s.memRead a).map fun v => s.dst o (f v)) = .next t) :
    (s.setHiLo hi lo).doneOr
      (((s.setHiLo hi lo).memRead a).map fun v => (s.setHiLo hi lo).dst o (f v)) =
        .next (t.setHiLo hi lo) := by
  rw [← doneOr_setHiLo h, setHiLo_memRead]
  cases s.memRead a with
  | ok v => simp [Except.map]
  | error r => rfl

theorem store_setHiLo {a : Int} {v : Word} (h : s.doneOr (s.memWrite a v) = .next t) :
    (s.setHiLo hi lo).doneOr ((s.setHiLo hi lo).memWrite a v) = .next (t.setHiLo hi lo) := by
  rw [← doneOr_setHiLo h, setHiLo_memWrite]

/-- Multiply and divide write both accumulators from the general registers alone. -/
theorem exec_mulDiv_setHiLo (hf : familyOf i = .mulDiv) : exec i (s.setHiLo hi lo) = exec i s := by
  cases i with
  | mult rs rt => simp [exec, execMult]
  | multu rs rt => simp [exec, execMultu]
  | div rs rt => simp [exec, execDiv]
  | divu rs rt => simp [exec, execDivu]
  | _ => cases hf

/-- Apart from their own family and the two moves, no instruction reads HI or LO. -/
theorem exec_setHiLo (hm : familyOf i ≠ .mulDiv) (ha : familyOf i ≠ .accMove)
    (h : exec i s = .next t) : exec i (s.setHiLo hi lo) = .next (t.setHiLo hi lo) := by
  cases i with
  | mult | multu | div | divu => exact absurd rfl hm
  | mfhi | mflo => exact absurd rfl ha
  | lw tgt base imm => exact load_setHiLo (f := id) h
  | lb tgt base imm => exact load_setHiLo (f := byteAsWord) h
  | lbu tgt base imm => exact load_setHiLo (f := byteAsWord) h
  | sw tgt base imm => exact store_setHiLo h
  | sb tgt base imm => exact store_setHiLo h
  | jr rs => exact Host.Outcome.next.inj h ▸ rfl
  | j target => exact Host.Outcome.next.inj h ▸ rfl
  | jal target => exact Host.Outcome.next.inj h ▸ rfl
  | beq rs rt imm => exact branch_done_setHiLo h
  | bne rs rt imm => exact branch_done_setHiLo h
  | bltz rs imm => exact branch_done_setHiLo h
  | _ => exact dst_done_setHiLo h

end StateFacts

/-! ### The statements -/

/-- Settles O20: the transfers by what each sets `pc` to, the others by the effects of `exec`. -/
theorem uniformAdvance : Obligations.UniformAdvance := by
  intro i s t h _ ht
  cases i with
  | jr rs => exact Host.Outcome.next.inj h ▸ rfl
  | j target => exact Host.Outcome.next.inj h ▸ rfl
  | jal target => exact Host.Outcome.next.inj h ▸ rfl
  | beq rs rt imm => simpa using branch_done_pc h
  | bne rs rt imm => simpa using branch_done_pc h
  | bltz rs imm => simpa using branch_done_pc h
  | _ => exact (exec_effect h).pc_of_not_transfer ht nofun nofun

/-- Settles O25: a cell that holds a record after the step is not data, so the step kept it. -/
theorem recordsAreNeverMadeOrEdited : Obligations.RecordsAreNeverMadeOrEdited := by
  intro s t hw h
  refine ⟨step_cell_kept_or_data hw h, fun a i hi => ?_⟩
  obtain hkept | ⟨v, hdata⟩ := step_cell_kept_or_data hw h a
  · exact hkept.symm.trans hi
  · cases hdata.symm.trans hi

/-- Settles O26: who writes HI and LO by the effects of `exec`, who reads them by exchanging them. -/
theorem accumulatorsBelongToMulDivAndMoves : Obligations.AccumulatorsBelongToMulDivAndMoves :=
  ⟨fun _ _ _ h hm => (exec_effect h).accKept hm,
    fun _ _ _ _ hm => exec_mulDiv_setHiLo hm,
    fun _ _ _ _ _ h hm ha => exec_setHiLo hm ha h,
    fun rd s => ⟨⟨_, rfl, (writesReg_dst s rd s.hi).regs⟩, ⟨_, rfl, (writesReg_dst s rd s.lo).regs⟩⟩,
    fun _ _ _ => rfl⟩

end Sys2Proof.Machine

/-! The statements on the fields of a word (spec/30_encoding.md R64 and R71), and the facts about the
decoder they rest on. -/

namespace Sys2Proof

section DecodeFacts

variable {w w' : Word} {i : Instr}

/-! ### The classes of words -/

theorem decode_register (h : opcodeField w = 0) : decode w = decodeRegister w := by
  simp [decode, h]

/-- The classification of R61: each class has its own decoder. -/
theorem decode_ok (h : decode w = .ok i) :
    (opcodeField w = 0 ∧ decodeRegister w = .ok i) ∨
    (opcodeField w = 2 ∧ i = .j (targetField w)) ∨
    (opcodeField w = 3 ∧ i = .jal (targetField w)) ∨
    decodeImmediate w = .ok i := by
  unfold decode at h
  split at h
  case h_1 hop => exact .inl ⟨field6_eq hop, h⟩
  case h_2 hop => exact .inr (.inl ⟨field6_eq hop, (Except.ok.inj h).symm⟩)
  case h_3 hop => exact .inr (.inr (.inl ⟨field6_eq hop, (Except.ok.inj h).symm⟩))
  case h_4 => exact .inr (.inr (.inr h))

/-! ### The immediate arithmetic and logic shape (R64) -/

/-- Destination, source and immediate of a record of the immediate arithmetic and logic shape. -/
def Instr.immArith : Instr → Option (Operand × Operand × BitVec 16)
  | .addi rt rs imm | .addiu rt rs imm | .slti rt rs imm => some (rt, rs, imm)
  | .andi rt rs imm | .ori rt rs imm | .xori rt rs imm => some (rt, rs, imm)
  | _ => none

theorem decodeRegister_immArith (h : decodeRegister w = .ok i) : i.immArith = none := by
  unfold decodeRegister at h
  split at h <;> cases h <;> rfl

theorem decodeImmediate_immArith (h : decodeImmediate w = .ok i) :
    i.immArith = none ∨ i.immArith = some (opB w, opA w, immField w) := by
  unfold decodeImmediate at h
  split at h <;> cases h <;> simp [Instr.immArith]

theorem decode_immArith (h : decode w = .ok i) :
    i.immArith = none ∨ i.immArith = some (opB w, opA w, immField w) := by
  obtain ⟨-, hreg⟩ | ⟨-, rfl⟩ | ⟨-, rfl⟩ | himm := decode_ok h
  · exact .inl (decodeRegister_immArith hreg)
  · exact .inl rfl
  · exact .inl rfl
  · exact decodeImmediate_immArith himm

/-! ### The shift amount (R71) -/

/-- The shift amount of a record that has one. -/
def Instr.shiftAmount : Instr → Option (BitVec 5)
  | .sll _ _ shamt | .srl _ _ shamt | .sra _ _ shamt => some shamt
  | _ => none

theorem decodeRegister_shiftAmount (h : decodeRegister w = .ok i) :
    i.shiftAmount = none ∨ i.shiftAmount = some (shamtField w) := by
  unfold decodeRegister at h
  split at h <;> cases h <;> simp [Instr.shiftAmount]

theorem decodeImmediate_shiftAmount (h : decodeImmediate w = .ok i) : i.shiftAmount = none := by
  unfold decodeImmediate at h
  split at h <;> cases h <;> rfl

theorem decode_shiftAmount (h : decode w = .ok i) :
    i.shiftAmount = none ∨ i.shiftAmount = some (shamtField w) := by
  obtain ⟨-, hreg⟩ | ⟨-, rfl⟩ | ⟨-, rfl⟩ | himm := decode_ok h
  · exact decodeRegister_shiftAmount hreg
  · exact .inl rfl
  · exact .inl rfl
  · exact .inl (decodeImmediate_shiftAmount himm)

/-- A record without a shift amount is made of the function field and the three register fields. -/
theorem decodeRegister_of_fields_eq (h : decodeRegister w = .ok i) (hs : i.shiftAmount = none)
    (hA : fieldA w' = fieldA w) (hB : fieldB w' = fieldB w) (hD : fieldD w' = fieldD w)
    (hF : functField w' = functField w) : decodeRegister w' = .ok i := by
  unfold decodeRegister opA opB opD at h ⊢
  rw [hA, hB, hD, hF]
  split at h
  case h_1 => cases h; cases hs
  case h_2 => cases h; cases hs
  case h_3 => cases h; cases hs
  all_goals exact h

/-- Words that agree under a mask agree in every field the mask covers. -/
theorem extractLsb'_eq_of_and_eq {m : Word} {k n : Nat} (h : w' &&& m = w &&& m)
    (hm : m.extractLsb' k n = BitVec.allOnes n) : w'.extractLsb' k n = w.extractLsb' k n := by
  simpa [BitVec.extractLsb'_and, hm] using congrArg (·.extractLsb' k n) h

end DecodeFacts

/-! ### The statements -/

/-- Settles O8: a decoded record's destination, source and immediate are fields of the word. -/
theorem immediateArithmeticFields : Obligations.ImmediateArithmeticFields := by
  intro w rt rs imm h
  have hfields : some (rt, rs, imm) = some (opB w, opA w, immField w) := by
    obtain h | h | h | h | h | h := h
    all_goals exact (decode_immArith h).resolve_left nofun
  cases hfields
  exact ⟨rfl, rfl, rfl⟩

/-- Settles O9: a decoded record's shift amount is a field of the word, and the mask of the other
register-type records covers every field they are made of. -/
theorem shiftAmountField : Obligations.ShiftAmountField := by
  refine ⟨fun w rd rt shamt h => ?_, fun w w' i hop h hi hmask => ?_⟩
  · have hshamt : some shamt = some (shamtField w) := by
      obtain h | h | h := h
      all_goals exact (decode_shiftAmount h).resolve_left nofun
    exact ⟨Option.some.inj hshamt, Nat.le_of_lt_succ shamt.isLt⟩
  · have hnone : i.shiftAmount = none := by
      cases i with
      | sll rd rt shamt => exact absurd rfl (hi rd rt shamt).1
      | srl rd rt shamt => exact absurd rfl (hi rd rt shamt).2.1
      | sra rd rt shamt => exact absurd rfl (hi rd rt shamt).2.2
      | _ => rfl
    have hop' : opcodeField w' = 0 := (extractLsb'_eq_of_and_eq hmask rfl).trans hop
    rw [decode_register hop] at h
    rw [decode_register hop']
    exact decodeRegister_of_fields_eq h hnone (extractLsb'_eq_of_and_eq hmask rfl)
      (extractLsb'_eq_of_and_eq hmask rfl) (extractLsb'_eq_of_and_eq hmask rfl)
      (extractLsb'_eq_of_and_eq hmask rfl)

end Sys2Proof

/-! The statement on terminal states (spec/40_execution_cycle.md R89), and the two ways a step ends
before dispatch, as equations of `step` beside `step_of_instr`. -/

namespace Sys2Proof.Machine

section StepEquations

variable {s : State}

/-- A running machine whose `pc` is outside the memory faults (R84). -/
theorem step_of_out_of_range (hs : s.status = .running) (hr : s.inRange s.pc = false) :
    step s = .next (s.raise (.memoryFault s.pc)) := by
  have hf : s.fetch = .error (.memoryFault s.pc) := fetch_error.2 ⟨hr, rfl⟩
  simp [step, hs, hf]

/-- A running machine whose `pc` is at a data cell halts (R85). -/
theorem step_of_data {v : Word} (hs : s.status = .running) (hr : s.inRange s.pc = true)
    (hc : s.cell s.pc.toNat = .data v) : step s = .next s.halt := by
  have hf : s.fetch = .ok (.data v) := fetch_ok.2 ⟨hr, hc.symm⟩
  simp [step, hs, hf]

/-- A running machine takes a step: each way the fetch can go answers a next state. -/
theorem step_next_of_running (hs : s.status = .running) : ∃ t, step s = .next t := by
  cases hr : s.inRange s.pc with
  | false => exact ⟨_, step_of_out_of_range hs hr⟩
  | true =>
    cases hc : s.cell s.pc.toNat with
    | data v => exact ⟨_, step_of_data hs hr hc⟩
    | instr i =>
      rw [step_of_instr hs hr hc]
      exact exec_next i s

end StepEquations

/-- Settles O19: a step that answers a next state began running, and a running machine takes one. -/
theorem terminalStatesTakeNoStep : Obligations.TerminalStatesTakeNoStep :=
  fun _ => ⟨fun ⟨_, h⟩ => (step_next h).1, step_next_of_running⟩

end Sys2Proof.Machine

/-! The statements on the decoder and the encoder (spec/30_encoding.md sections 2 to 5). They rest on
two facts: a decoded word meets its record's table row and the record's fields are read from it
(`row_of_decode`), and a word that meets a row decodes to the record read from it
(`decode_of_row`). -/

namespace Sys2Proof

open Laws.TableRow (mask pattern)

section TableRows

variable {w w' : Word} {i : Instr}

/-! ### Records read from a word -/

/-- The record of the same row as `i`, with every field read from `w` (R62 to R71). -/
def Instr.readFrom (w : Word) : Instr → Instr
  | .add _ _ _ => .add (opD w) (opA w) (opB w)
  | .sub _ _ _ => .sub (opD w) (opA w) (opB w)
  | .addu _ _ _ => .addu (opD w) (opA w) (opB w)
  | .subu _ _ _ => .subu (opD w) (opA w) (opB w)
  | .and _ _ _ => .and (opD w) (opA w) (opB w)
  | .or _ _ _ => .or (opD w) (opA w) (opB w)
  | .xor _ _ _ => .xor (opD w) (opA w) (opB w)
  | .nor _ _ _ => .nor (opD w) (opA w) (opB w)
  | .slt _ _ _ => .slt (opD w) (opA w) (opB w)
  | .mfhi _ => .mfhi (opD w)
  | .mflo _ => .mflo (opD w)
  | .mult _ _ => .mult (opA w) (opB w)
  | .multu _ _ => .multu (opA w) (opB w)
  | .div _ _ => .div (opA w) (opB w)
  | .divu _ _ => .divu (opA w) (opB w)
  | .sll _ _ _ => .sll (opD w) (opB w) (shamtField w)
  | .srl _ _ _ => .srl (opD w) (opB w) (shamtField w)
  | .sra _ _ _ => .sra (opD w) (opB w) (shamtField w)
  | .sllv _ _ _ => .sllv (opD w) (opB w) (opA w)
  | .srlv _ _ _ => .srlv (opD w) (opB w) (opA w)
  | .srav _ _ _ => .srav (opD w) (opB w) (opA w)
  | .addi _ _ _ => .addi (opB w) (opA w) (immField w)
  | .addiu _ _ _ => .addiu (opB w) (opA w) (immField w)
  | .slti _ _ _ => .slti (opB w) (opA w) (immField w)
  | .andi _ _ _ => .andi (opB w) (opA w) (immField w)
  | .ori _ _ _ => .ori (opB w) (opA w) (immField w)
  | .xori _ _ _ => .xori (opB w) (opA w) (immField w)
  | .lw _ _ _ => .lw (opA w) (opB w) (immField w)
  | .sw _ _ _ => .sw (opA w) (opB w) (immField w)
  | .lb _ _ _ => .lb (opA w) (opB w) (immField w)
  | .lbu _ _ _ => .lbu (opA w) (opB w) (immField w)
  | .sb _ _ _ => .sb (opA w) (opB w) (immField w)
  | .jr _ => .jr (opA w)
  | .j _ => .j (targetField w)
  | .jal _ => .jal (targetField w)
  | .beq _ _ _ => .beq (opA w) (opB w) (immField w)
  | .bne _ _ _ => .bne (opA w) (opB w) (immField w)
  | .bltz _ _ => .bltz (opA w) (immField w)

theorem readFrom_wf (w : Word) (i : Instr) : (i.readFrom w).wf = true := by
  cases i <;> simp [Instr.readFrom, Instr.wf, Instr.operands]

/-- What the table says of a row does not depend on the operands. -/
theorem readFrom_mask (w : Word) (i : Instr) : mask (i.readFrom w) = mask i := by cases i <;> rfl
theorem readFrom_pattern (w : Word) (i : Instr) : pattern (i.readFrom w) = pattern i := by
  cases i <;> rfl
theorem readFrom_keptBits (w : Word) (i : Instr) : (i.readFrom w).keptBits = i.keptBits := by
  cases i <;> rfl

/-- A row fixes the opcode, and in the register class, where it is zero, the function field (R60). -/
theorem mask_eq (i : Instr) :
    (mask i = 0xFC00003F#32 ∧ opcodeField (pattern i) = 0) ∨ mask i = 0xFC000000#32 := by
  cases i with
  | j | jal => exact .inr rfl
  | addi | addiu | slti | andi | ori | xori => exact .inr rfl
  | lw | sw | lb | lbu | sb | beq | bne | bltz => exact .inr rfl
  | _ => exact .inl ⟨rfl, by simp only [pattern]; rfl⟩

/-- The bits that select the row are kept (R72). -/
theorem keptBits_and_mask (i : Instr) : i.keptBits &&& mask i = mask i := by
  cases i <;> simp only [Instr.keptBits, mask] <;> rfl

/-- Every encoding meets the row of its record. -/
theorem encode_and_mask (i : Instr) : encode i &&& mask i = pattern i := by
  cases i with
  | j | jal => exact jWord_mask _ _
  | addi | addiu | slti | andi | ori | xori => exact iWord_mask _ _ _ _
  | lw | sw | lb | lbu | sb | beq | bne | bltz => exact iWord_mask _ _ _ _
  | _ => exact rWord_mask _ _ _ _ _

/-- The fields of an encoding are the fields it was made of. -/
theorem readFrom_encode (h : i.wf = true) : i.readFrom (encode i) = i := by
  cases i <;>
    simp_all [Instr.wf, Instr.operands, Instr.readFrom, encode, opA, opB, opD, ofField_field]

/-! ### A row met by a word -/

/-- A field that a mask covers is read off the match value. -/
theorem extractLsb'_of_and_eq {m p : Word} {k n : Nat} (h : w &&& m = p)
    (hm : m.extractLsb' k n = BitVec.allOnes n) : w.extractLsb' k n = p.extractLsb' k n := by
  simpa [BitVec.extractLsb'_and, hm] using congrArg (·.extractLsb' k n) h

theorem opcodeField_of_row (h : w &&& mask i = pattern i) :
    opcodeField w = opcodeField (pattern i) := by
  refine extractLsb'_of_and_eq h ?_
  obtain ⟨hm, -⟩ | hm := mask_eq i
  all_goals rw [hm]; rfl

/-- In the register class the row fixes the function field. -/
theorem functField_of_row (h : w &&& mask i = pattern i) (hm : mask i = 0xFC00003F#32) :
    functField w = functField (pattern i) :=
  extractLsb'_of_and_eq h (by rw [hm]; rfl)

/-- A word of the register class under its mask is its function value. -/
theorem and_register_mask (hop : opcodeField w = 0) :
    w &&& (0xFC00003F : Word) = (functField w).setWidth 32 := by
  conv_lhs => rw [← rWord_fields w hop]
  exact rWord_mask _ _ _ _ _

/-- A word under the mask of the other classes is its opcode. -/
theorem and_opcode_mask (w : Word) :
    w &&& (0xFC000000 : Word) = (opcodeField w).setWidth 32 <<< 26 := by
  conv_lhs => rw [← iWord_fields w]
  exact iWord_mask _ _ _ _

theorem decodeRegister_row (hop : opcodeField w = 0) (h : decodeRegister w = .ok i) :
    w &&& mask i = pattern i ∧ i.readFrom w = i := by
  unfold decodeRegister at h
  split at h <;> cases h
  all_goals
    rename_i hfn
    exact ⟨by rw [mask, and_register_mask hop, field6_eq hfn]; rfl, rfl⟩

theorem decodeImmediate_row (h : decodeImmediate w = .ok i) :
    w &&& mask i = pattern i ∧ i.readFrom w = i := by
  unfold decodeImmediate at h
  split at h <;> cases h
  all_goals
    rename_i hop
    exact ⟨by rw [mask, and_opcode_mask, field6_eq hop]; rfl, rfl⟩

/-- The row a decoded word meets, and the fields its record has. -/
theorem row_of_decode (h : decode w = .ok i) : w &&& mask i = pattern i ∧ i.readFrom w = i := by
  obtain ⟨hop, hreg⟩ | ⟨hop, rfl⟩ | ⟨hop, rfl⟩ | himm := decode_ok h
  · exact decodeRegister_row hop hreg
  · exact ⟨by rw [mask, and_opcode_mask, hop]; rfl, rfl⟩
  · exact ⟨by rw [mask, and_opcode_mask, hop]; rfl, rfl⟩
  · exact decodeImmediate_row himm

/-- A word that meets a row decodes to the row's record, read from the word. -/
theorem decode_of_row (h : w &&& mask i = pattern i) : decode w = .ok (i.readFrom w) := by
  have hop := opcodeField_of_row h
  unfold decode
  cases i with
  | j | jal =>
    simp only [pattern] at hop
    rw [hop]
    rfl
  | addi | addiu | slti | andi | ori | xori | lw | sw | lb | lbu | sb | beq | bne | bltz =>
    simp only [pattern] at hop
    unfold decodeImmediate
    rw [hop]
    rfl
  | _ =>
    have hfn := functField_of_row h rfl
    simp only [pattern] at hop hfn
    unfold decodeRegister
    rw [hop, hfn]
    rfl

theorem decode_of_row_of_fields (h : w &&& mask i = pattern i) (hr : i.readFrom w = i) :
    decode w = .ok i := by
  rw [decode_of_row h, hr]

theorem decode_encode (h : i.wf = true) : decode (encode i) = .ok i :=
  decode_of_row_of_fields (encode_and_mask i) (readFrom_encode h)

/-! ### The kept bits (R72) -/

/-- A word of a register-class row is made of the row's function value and its other fields. -/
theorem eq_rWord_of_row (h : w &&& mask i = pattern i) (hm : mask i = 0xFC00003F#32) :
    w = rWord (fieldA w) (fieldB w) (fieldD w) (shamtField w) (functField (pattern i)) := by
  obtain ⟨-, hp⟩ | hm' := mask_eq i
  · rw [← functField_of_row h hm, rWord_fields w ((opcodeField_of_row h).trans hp)]
  · exact absurd (hm.symm.trans hm') (by decide)

theorem eq_iWord_of_row (h : w &&& mask i = pattern i) :
    w = iWord (opcodeField (pattern i)) (fieldA w) (fieldB w) (immField w) := by
  rw [← opcodeField_of_row h, iWord_fields]

theorem eq_jWord_of_row (h : w &&& mask i = pattern i) :
    w = jWord (opcodeField (pattern i)) (targetField w) := by
  rw [← opcodeField_of_row h, jWord_fields]

/-- The record of a row, read from a word of the row, is encoded in the bits the row keeps. -/
theorem encode_readFrom (h : w &&& mask i = pattern i) :
    encode (i.readFrom w) = w &&& i.keptBits := by
  cases i
  case' j | jal =>
    conv_rhs => rw [eq_jWord_of_row h]
    refine Eq.trans ?_ (word_allKept _).symm
  case' bltz =>
    conv_rhs => rw [eq_iWord_of_row h]
    refine Eq.trans ?_ (iWord_noB ..).symm
  case' addi | addiu | slti | andi | ori | xori | lw | sw | lb | lbu | sb | beq | bne =>
    conv_rhs => rw [eq_iWord_of_row h]
    refine Eq.trans ?_ (word_allKept _).symm
  case' mfhi | mflo =>
    conv_rhs => rw [eq_rWord_of_row h rfl]
    refine Eq.trans ?_ (rWord_onlyD ..).symm
  case' mult | multu | div | divu =>
    conv_rhs => rw [eq_rWord_of_row h rfl]
    refine Eq.trans ?_ (rWord_onlyAB ..).symm
  case' sll | srl | sra =>
    conv_rhs => rw [eq_rWord_of_row h rfl]
    refine Eq.trans ?_ (rWord_noA ..).symm
  case' jr =>
    conv_rhs => rw [eq_rWord_of_row h rfl]
    refine Eq.trans ?_ (rWord_onlyA ..).symm
  case' add | sub | addu | subu | and | or | xor | nor | slt | sllv | srlv | srav =>
    conv_rhs => rw [eq_rWord_of_row h rfl]
    refine Eq.trans ?_ (rWord_noShamt ..).symm
  all_goals
    simp only [Instr.readFrom, encode, opA_field, opB_field, opD_field, pattern]
    rfl

/-- A word that agrees with a decoded one on the kept bits meets the same row, and its record has the
same encoding. -/
theorem decode_of_keptBits_eq (h : decode w = .ok i) (hk : w' &&& i.keptBits = w &&& i.keptBits) :
    decode w' = .ok i := by
  obtain ⟨hrow, hread⟩ := row_of_decode h
  have hrow' : w' &&& mask i = pattern i := by
    rw [← keptBits_and_mask i, ← BitVec.and_assoc, hk, BitVec.and_assoc, keptBits_and_mask, hrow]
  have henc : encode (i.readFrom w') = encode (i.readFrom w) := by
    rw [encode_readFrom hrow', encode_readFrom hrow, hk]
  rw [decode_of_row hrow', ← decode_encode (readFrom_wf w' i), henc,
    decode_encode (readFrom_wf w i), hread]

/-! ### Refused words (R77) -/

/-- The function values of R73. -/
def functTable : List Nat :=
  [0x00, 0x02, 0x03, 0x04, 0x06, 0x07, 0x08, 0x10, 0x12, 0x18, 0x19, 0x1A, 0x1B,
    0x20, 0x21, 0x22, 0x23, 0x24, 0x25, 0x26, 0x27, 0x2A]

/-- The opcodes of R74. -/
def immediateTable : List Nat :=
  [0x01, 0x04, 0x05, 0x08, 0x09, 0x0A, 0x0C, 0x0D, 0x0E, 0x20, 0x23, 0x24, 0x28, 0x2B]

theorem decodeRegister_error_iff {e : DecodeError} :
    decodeRegister w = .error e ↔
      (functField w).toNat ∉ functTable ∧ e = .unknownFunct (functField w) := by
  unfold decodeRegister
  split
  case h_23 => simp_all [functTable, eq_comm]
  all_goals
    rename_i hrow
    simp [functTable, hrow]

theorem decodeImmediate_error_iff {e : DecodeError} :
    decodeImmediate w = .error e ↔
      (opcodeField w).toNat ∉ immediateTable ∧ e = .unknownOpcode (opcodeField w) := by
  unfold decodeImmediate
  split
  case h_15 => simp_all [immediateTable, eq_comm]
  all_goals
    rename_i hrow
    simp [immediateTable, hrow]

/-- Each refusal with the class it comes from. -/
theorem decode_error_iff {e : DecodeError} :
    decode w = .error e ↔
      (opcodeField w = 0 ∧ (functField w).toNat ∉ functTable ∧ e = .unknownFunct (functField w)) ∨
      ((opcodeField w).toNat ∉ [0, 2, 3] ++ immediateTable ∧ e = .unknownOpcode (opcodeField w)) := by
  unfold decode
  split
  case h_1 hop => simp [decodeRegister_error_iff, field6_eq hop]
  case h_2 hop => simp [field6_eq hop]
  case h_3 hop => simp [field6_eq hop]
  case h_4 h0 h2 h3 =>
    have hne : opcodeField w ≠ 0 := fun h => h0 (by rw [h]; rfl)
    simp_all [decodeImmediate_error_iff]

end TableRows

/-! ### The statements -/

/-- Settles O4: an encoding meets its record's row and has its record's fields. -/
theorem decodeEncodeRoundTrip : Obligations.DecodeEncodeRoundTrip := fun _ => decode_encode

/-- Settles O2: each clause gives one constructor's row, and names the fields that row reads. -/
theorem everyTableRowDecodes : Obligations.EveryTableRowDecodes := by
  intro w
  refine ⟨?_, ?_, ?_, ?_, ?_, ?_, ?_, ?_, ?_, ?_, ?_, ?_, ?_, ?_, ?_, ?_, ?_, ?_, ?_, ?_, ?_, ?_, ?_,
    ?_, ?_, ?_, ?_, ?_, ?_, ?_, ?_, ?_, ?_, ?_, ?_, ?_, ?_, ?_⟩
  all_goals exact fun h => decode_of_row_of_fields h rfl

/-- Settles O5: a decoded word meets its record's row, and encoding what is read from it keeps the
row's bits. -/
theorem encodeRebuildsTheKeptBits : Obligations.EncodeRebuildsTheKeptBits := by
  intro w i h
  obtain ⟨hrow, hread⟩ := row_of_decode h
  rw [← encode_readFrom hrow, hread]

/-- Settles O6: the row and the record's encoding lie in the kept bits. -/
theorem ignoredBitsChangeNothing : Obligations.IgnoredBitsChangeNothing :=
  fun _ _ _ => decode_of_keptBits_eq

/-- Settles O7: a decoded record is read from its word, and a field of zero is read as absent. -/
theorem decodedRecordsNeverNameRegisterZero : Obligations.DecodedRecordsNeverNameRegisterZero :=
  fun w i h => (row_of_decode h).2 ▸ readFrom_wf w i

/-- Settles O3: the values listed are those outside the tables. -/
theorem decodeRefusesExactlyTheIllegalWords : Obligations.DecodeRefusesExactlyTheIllegalWords := by
  intro w
  refine ⟨?_, ?_, fun e h => ?_⟩
  · have h : decode w = .error (.unknownFunct (functField w)) ↔
        opcodeField w = 0 ∧ (functField w).toNat ∉ functTable := by simp [decode_error_iff]
    refine h.trans (and_congr_right fun _ => ?_)
    change (functField w).toNat ∉ functTable ↔ (functField w).toNat ∈ _
    generalize functField w = f
    revert f
    decide
  · have h : decode w = .error (.unknownOpcode (opcodeField w)) ↔
        (opcodeField w).toNat ∉ [0, 2, 3] ++ immediateTable := by simp [decode_error_iff]
    refine h.trans ?_
    change _ ↔ (opcodeField w).toNat ∈ _
    generalize opcodeField w = f
    revert f
    decide
  · obtain ⟨-, -, rfl⟩ | ⟨-, rfl⟩ := decode_error_iff.1 h
    · exact .inl rfl
    · exact .inr rfl

end Sys2Proof

/-! The statements on the invariant (spec/10_state.md R15 and R26, spec/20_memory.md R38 and R43,
spec/46_control_transfer.md R148). Each update of the state keeps it; a step and a load are made of
such updates. -/

namespace Sys2Proof.Machine

section Invariant

variable {s t : State} {i : Instr}

/-! ### The updates that keep the invariant -/

theorem State.Inv.setStatus (h : s.Inv) (q : Status) : State.Inv { s with status := q } :=
  { h with }

theorem State.Inv.setPc (h : s.Inv) {p : Int} (hp : -(2 ^ 31) < p ∧ p ≤ 2 ^ 31 + 65534) :
    (s.setPc p).Inv :=
  { h with pcRange := hp }

theorem State.Inv.setHiLo (h : s.Inv) (hi lo : Word) : (s.setHiLo hi lo).Inv := { h with }

theorem State.Inv.setReg (h : s.Inv) {r : RegCode} (hr : r ≠ 0) (v : Word) : (s.setReg r v).Inv :=
  { h with zeroReg := by simp [hr, h.zeroReg] }

/-- A destination that is no explicit register 0 leaves register 0 alone. -/
theorem State.Inv.dst (h : s.Inv) {o : Operand} (ho : o.wf = true) (v : Word) : (s.dst o v).Inv := by
  cases o with
  | absent => exact h
  | reg r => exact h.setReg (by simpa [Operand.wf] using ho) v

theorem State.Inv.raiseLp (h : s.Inv) {n : Nat} (h1 : s.lp ≤ n) (h2 : n ≤ s.config.memWords) :
    State.Inv { s with lp := n } :=
  { h with
    loadBound := h2
    program := fun a i ha => ⟨Nat.lt_of_lt_of_le (h.program a i ha).1 h1, (h.program a i ha).2⟩ }

/-- A cell in range can be replaced by data, and below `lp` by a record a decoder can make. -/
theorem State.Inv.putCell (h : s.Inv) {a : Nat} (ha : a < s.config.memWords) {c : Cell}
    (hc : ∀ i, c = .instr i → a < s.lp ∧ i.wf = true) : (s.putCell a c).Inv where
  configWf := h.configWf
  canonical := putCell_wf h.canonical a c
  zeroReg := h.zeroReg
  loadBound := h.loadBound
  outside := fun b hb => by
    have hba : b ≠ a := fun e => by subst e; exact Nat.not_lt.2 hb ha
    rw [putCell_cell h.canonical, if_neg hba]
    exact h.outside b hb
  program := fun b i hb => by
    rw [putCell_cell h.canonical] at hb
    split at hb
    case isTrue hba => exact hba ▸ hc i hb
    case isFalse => exact h.program b i hb
  pcRange := h.pcRange

/-! ### A step -/

theorem memWords_le {c : Config} (h : c.wf = true) : c.memWords ≤ 2 ^ 31 - 1 := by
  simp only [Config.wf, Bool.and_eq_true, decide_eq_true_eq] at h
  exact h.2

/-- A `pc` in range leaves room for every transfer within reach (R148). -/
theorem State.Inv.pc_bounds (h : s.Inv) (hr : s.inRange s.pc = true) :
    0 ≤ s.pc ∧ s.pc < 2 ^ 31 - 1 := by
  obtain ⟨h0, h1⟩ := inRange_iff.1 hr
  have hm := memWords_le h.configWf
  omega

theorem operand_wf_of_mem {o : Operand} (h : i.wf = true) (ho : o ∈ i.operands) : o.wf = true :=
  List.all_eq_true.1 h o ho

/-- Every effect of a decodable instruction, from an in-range `pc`, keeps the invariant. -/
theorem ExecEffect.inv (he : ExecEffect i s t) (h : s.Inv) (hi : i.wf = true)
    (hr : s.inRange s.pc = true) : t.Inv := by
  obtain ⟨h0, h1⟩ := h.pc_bounds hr
  cases he with
  | raised r => exact h.setStatus _
  | wroteReg o v ho =>
    exact (h.dst (operand_wf_of_mem hi ho) v).setPc (by rw [dst_pc]; omega)
  | wroteAcc hi lo => exact (h.setHiLo hi lo).setPc (by rw [setHiLo_pc]; omega)
  | stored a v _ ha =>
    have ha' : a.toNat < s.config.memWords := by have := inRange_iff.1 ha; omega
    exact (h.putCell ha' (c := .data v) nofun).setPc (by rw [putCell_pc]; omega)
  | went p _ hlow hhigh => exact h.setPc (by rw [setPc_pc]; omega)
  | linked p v _ hlow hhigh => exact (h.setReg (by decide) v).setPc (by rw [setPc_pc]; omega)

theorem step_inv (h : s.Inv) (hstep : step s = .next t) : t.Inv := by
  obtain ⟨-, ⟨-, rfl⟩ | ⟨-, -, rfl⟩ | ⟨hr, i, hc, hexec⟩⟩ := step_next hstep
  · exact h.setStatus _
  · exact h.setStatus _
  · exact (exec_effect hexec).inv h (h.program _ _ hc).2 hr

/-! ### Reset and load -/

theorem construct_inv {c : Config} (hc : c.wf = true) : (State.construct c).Inv where
  configWf := hc
  canonical := rfl
  zeroReg := by simp
  loadBound := Nat.zero_le _
  outside := fun _ _ => rfl
  program := fun _ _ h => by cases h
  pcRange := by simp

theorem loadWord_inv (h : s.Inv) (w : Word) : (s.loadWord w).Inv := by
  cases hw : decode w with
  | error e =>
    rw [loadWord_illegal hw]
    exact h.setStatus _
  | ok i =>
    rcases Nat.lt_or_ge s.lp s.config.memWords with hl | hl
    · rw [loadWord_appends hw hl]
      have hwf : i.wf = true := decodedRecordsNeverNameRegisterZero w i hw
      refine (h.raiseLp (Nat.le_succ s.lp) hl).putCell (c := .instr i) hl ?_
      exact fun j hj => ⟨Nat.lt_succ_self s.lp, Cell.instr.inj hj ▸ hwf⟩
    · rw [loadWord_full hw hl]
      exact h.setStatus _

theorem loadProgram_inv (h : s.Inv) (ws : List Word) : (s.loadProgram ws).Inv := by
  induction ws generalizing s with
  | nil => exact h
  | cons w ws ih =>
    unfold State.loadProgram
    split
    · exact ih (loadWord_inv h w)
    · exact h
    · exact h

theorem start_inv (h : s.Inv) : s.start.Inv := by
  unfold State.start
  split
  · exact h.setPc (by decide)
  · exact h
  · exact h

/-! ### Register 0 -/

theorem dst_reg_zero {o : Operand} (ho : o.wf = true) (v : Word) : (s.dst o v).reg 0 = s.reg 0 := by
  cases o with
  | absent => rfl
  | reg r =>
    have hr : r ≠ 0 := by simpa [Operand.wf] using ho
    simp [hr]

theorem ExecEffect.reg_zero (he : ExecEffect i s t) (hi : i.wf = true) : t.reg 0 = s.reg 0 := by
  cases he with
  | wroteReg o v ho => exact dst_reg_zero (operand_wf_of_mem hi ho) v
  | linked => simp
  | _ => rfl

/-! ### The load pointer and the parameters -/

theorem ExecEffect.hostKept (he : ExecEffect i s t) : HostKept s t := by
  cases he with
  | wroteReg o v => simp [HostKept]
  | _ => exact ⟨rfl, rfl⟩

end Invariant

/-! ### The statements -/

/-- Settles O21: the updates that a step's effects are made of keep the invariant. -/
theorem stepKeepsTheInvariant : Obligations.StepKeepsTheInvariant := fun _ _ => step_inv

/-- Settles O22. -/
theorem resetMeetsTheInvariant : Obligations.ResetMeetsTheInvariant :=
  ⟨fun _ => construct_inv, construct_inv (by decide)⟩

/-- Settles O23: by induction over the words loaded. -/
theorem loadKeepsTheInvariant : Obligations.LoadKeepsTheInvariant :=
  fun _ ws h => ⟨loadProgram_inv h ws, start_inv (loadProgram_inv h ws)⟩

/-- Settles O24: no effect of a record without `reg 0` writes register 0. -/
theorem registerZeroIsNeverWritten : Obligations.RegisterZeroIsNeverWritten :=
  fun _ _ _ hi h => (exec_effect h).reg_zero hi

/-- Settles O31. -/
theorem stepKeepsLoadPointerAndParameters : Obligations.StepKeepsLoadPointerAndParameters := by
  intro s t h
  obtain ⟨-, ⟨-, rfl⟩ | ⟨-, -, rfl⟩ | ⟨-, i, -, hexec⟩⟩ := step_next h
  · exact ⟨rfl, rfl⟩
  · exact ⟨rfl, rfl⟩
  · exact (exec_effect hexec).hostKept

end Sys2Proof.Machine

/-! The statements on memory access, faults, the halt and the reach of the transfers
(spec/20_memory.md section 2, spec/40_execution_cycle.md R83 to R88, spec/60_exceptions.md R155 to
R160, spec/46_control_transfer.md R148 to R150). -/

namespace Sys2Proof.Machine

section Faults

variable {s t : State} {i : Instr} {a : Int}

/-! ### The range check, as the statements write it -/

theorem inRange_of (h0 : 0 ≤ a) (h1 : a < s.config.memWords) : s.inRange a = true :=
  inRange_iff.2 ⟨h0, h1⟩

theorem inRange_eq_false (h : a < 0 ∨ (s.config.memWords : Int) ≤ a) : s.inRange a = false := by
  rw [Bool.eq_false_iff, ne_eq, inRange_iff]
  omega

/-! ### Accesses that succeed -/

theorem memRead_of_data {v : Word} (h0 : 0 ≤ a) (h1 : a < s.config.memWords)
    (hc : s.cell a.toNat = .data v) : s.memRead a = .ok v :=
  memRead_ok.2 ⟨inRange_of h0 h1, hc⟩

/-- A store in range completes, whatever the cell held. -/
theorem store_completes (h0 : 0 ≤ a) (h1 : a < s.config.memWords) (v : Word) :
    ∃ t, s.doneOr (s.memWrite a v) = .next t ∧ t.status = s.status :=
  ⟨(s.putCell a.toNat (.data v)).advance, by rw [memWrite_ok.2 ⟨inRange_of h0 h1, rfl⟩]; rfl, rfl⟩

/-! ### What a step does to the status (R85, R155) -/

/-- An instruction keeps the status, or raises a fault of a memory access and does nothing else. -/
theorem ExecEffect.status_kept_or_raised (h : ExecEffect i s t) :
    t.status = s.status ∨ (familyOf i = .load ∨ familyOf i = .store) ∧
      ∃ r, (r.kind = .memoryFault ∨ r.kind = .instrCellRead) ∧ t = s.raise r := by
  cases h with
  | raised r hf hk => exact .inr ⟨hf, r, hk, rfl⟩
  | wroteReg o v => exact .inl (by simp)
  | _ => exact .inl rfl

/-- A step that faults raises the fault of a memory access in the state it began in. -/
theorem step_faulted {k : FaultKind} (h : step s = .next t) (ht : t.status = .faulted k) :
    ∃ r, (r.kind = .memoryFault ∨ r.kind = .instrCellRead) ∧ t = s.raise r := by
  obtain ⟨hs, ⟨-, rfl⟩ | ⟨-, -, rfl⟩ | ⟨-, i, -, hexec⟩⟩ := step_next h
  · exact ⟨_, .inl rfl, rfl⟩
  · cases ht
  · obtain hkept | ⟨-, hraised⟩ := (exec_effect hexec).status_kept_or_raised
    · cases ht.symm.trans (hkept.trans hs)
    · exact hraised

/-- A step that halts began running at a data cell. -/
theorem step_halted (h : step s = .next t) (ht : t.status = .halted) :
    s.status = .running ∧ s.inRange s.pc = true ∧ ∃ v, s.cell s.pc.toNat = .data v := by
  obtain ⟨hs, ⟨-, rfl⟩ | ⟨hr, hv, -⟩ | ⟨-, i, -, hexec⟩⟩ := step_next h
  · cases ht
  · exact ⟨hs, hr, hv⟩
  · obtain hkept | ⟨-, r, -, rfl⟩ := (exec_effect hexec).status_kept_or_raised
    · cases ht.symm.trans (hkept.trans hs)
    · cases ht

/-! ### Accesses that fault (R131, R138) -/

variable {tgt base : Operand} {imm : BitVec 16}

/-- The fault of a read is the fault of each load from there. -/
theorem exec_load_fault {r : Raised}
    (hi : i = .lw tgt base imm ∨ i = .lb tgt base imm ∨ i = .lbu tgt base imm)
    (h : s.memRead (s.effAddr base imm) = .error r) : exec i s = .next (s.raise r) := by
  obtain rfl | rfl | rfl := hi
  · exact load_answers_fault (f := id) h
  · exact load_answers_fault (f := byteAsWord) h
  · exact load_answers_fault (f := byteAsWord) h

theorem exec_load_out_of_range
    (hi : i = .lw tgt base imm ∨ i = .lb tgt base imm ∨ i = .lbu tgt base imm)
    (h : s.inRange (s.effAddr base imm) = false) :
    exec i s = .next (s.raise (.memoryFault (s.effAddr base imm))) :=
  exec_load_fault hi (memRead_error.2 (.inl ⟨h, rfl⟩))

theorem exec_load_instrCell
    (hi : i = .lw tgt base imm ∨ i = .lb tgt base imm ∨ i = .lbu tgt base imm)
    (h : s.inRange (s.effAddr base imm) = true)
    (hc : ∃ k, s.cell (s.effAddr base imm).toNat = .instr k) :
    exec i s = .next (s.raise (.instrCellRead (s.effAddr base imm))) :=
  exec_load_fault hi (memRead_error.2 (.inr ⟨h, hc, rfl⟩))

theorem exec_sw_out_of_range (h : s.inRange (s.effAddr base imm) = false) :
    exec (.sw tgt base imm) s = .next (s.raise (.memoryFault (s.effAddr base imm))) :=
  store_answers_fault h

theorem exec_sb_out_of_range (h : s.inRange (s.effAddr (s.sbAddrOperand tgt base) imm) = false) :
    exec (.sb tgt base imm) s =
      .next (s.raise (.memoryFault (s.effAddr (s.sbAddrOperand tgt base) imm))) :=
  store_answers_fault h

end Faults

/-! ### The statements on memory access -/

/-- Settles O12. -/
theorem loadAccess : Obligations.LoadAccess := by
  refine fun s a => ⟨fun ha => ?_, fun k hk hka v hc => ?_, fun k hk hka i hc => ?_⟩
  · exact memRead_error.2 (.inl ⟨inRange_eq_false ha, rfl⟩)
  · subst hka
    exact memRead_of_data (by omega) (by omega) hc
  · subst hka
    exact memRead_error.2 (.inr ⟨inRange_of (by omega) (by omega), ⟨i, hc⟩, rfl⟩)

/-- Settles O13: the write that answers is `putCell`, and a read after it is `read_write`. -/
theorem storeAccess : Obligations.StoreAccess := by
  refine fun s a v hw => ⟨fun ha => ?_, fun h0 h1 => ?_⟩
  · exact memWrite_error.2 ⟨inRange_eq_false ha, rfl⟩
  · exact ⟨_, memWrite_ok.2 ⟨inRange_of h0 h1, rfl⟩, cellGets_putCell hw h0 v, putCell_wf hw _ _,
      fun _ => rfl, ⟨rfl, rfl⟩, ⟨rfl, rfl⟩, rfl, rfl⟩

/-- Settles O54. -/
theorem loadFaults : Obligations.LoadFaults := by
  refine fun s tgt base imm i hi => ⟨fun ha => ?_, fun h0 h1 hc => ?_⟩
  · exact ⟨_, exec_load_out_of_range hi (inRange_eq_false ha), endsWith_raise _ _⟩
  · exact ⟨_, exec_load_instrCell hi (inRange_of h0 h1) hc, endsWith_raise _ _⟩

/-- Settles O55: `sbAddrOperand` is the operand that SB_SWAPPED selects. -/
theorem storeFaults : Obligations.StoreFaults := by
  refine fun s tgt base imm => ⟨fun ha => ?_, fun o ho ha => ?_⟩
  · exact ⟨_, exec_sw_out_of_range (inRange_eq_false ha), endsWith_raise _ _⟩
  · subst ho
    exact ⟨_, exec_sb_out_of_range (inRange_eq_false ha), endsWith_raise _ _⟩

/-- Settles O29: the failed check answers the fault, which keeps registers and cells. -/
theorem failedAddressCheckChangesNothing : Obligations.FailedAddressCheckChangesNothing := by
  intro s tgt base imm i a hi ha
  have hout := inRange_eq_false ha
  have hfault : ∃ r, exec i s = .next (s.raise r) := by
    obtain ⟨rfl | rfl | rfl | rfl, rfl⟩ | ⟨rfl, rfl⟩ := hi
    · exact ⟨_, exec_load_out_of_range (.inl rfl) hout⟩
    · exact ⟨_, exec_load_out_of_range (.inr (.inl rfl)) hout⟩
    · exact ⟨_, exec_load_out_of_range (.inr (.inr rfl)) hout⟩
    · exact ⟨_, exec_sw_out_of_range hout⟩
    · exact ⟨_, exec_sb_out_of_range hout⟩
  obtain ⟨r, hexec⟩ := hfault
  have hends := endsWith_raise s r
  exact ⟨_, hexec, hends.regs, hends.acc, hends.cells⟩

/-! ### The statements on steps -/

/-- Settles O16: `step_of_instr`, also after the record of a placed word is read back. -/
theorem stepRunsTheFetchedInstruction : Obligations.StepRunsTheFetchedInstruction := by
  refine ⟨fun s i hs h0 h1 hc => step_of_instr hs (inRange_of h0 h1) hc, ?_⟩
  intro s w i hw h0 h1 hdec
  have hplace : s.withFetchWord 32 w.toNat = s.placeAtPc i := by
    simp [State.withFetchWord, decodeTableWord, Nat.mod_eq_of_lt w.isLt, hdec]
  rw [hplace]
  have hcell : (s.placeAtPc i).cell s.pc.toNat = .instr i := by rw [placeAtPc_cell hw, if_pos rfl]
  exact ⟨hcell, step_of_instr rfl (inRange_of h0 h1) hcell⟩

/-- Settles O17. -/
theorem fetchOutOfRangeFaults : Obligations.FetchOutOfRangeFaults :=
  fun s hs hpc => ⟨_, step_of_out_of_range hs (inRange_eq_false hpc), endsWith_raise s _⟩

/-- Settles O18: `step_of_data`, and by the cases of a step nothing else halts. -/
theorem dataCellHaltsTheRun : Obligations.DataCellHaltsTheRun := by
  refine ⟨fun s v hs h0 h1 hc => ?_, fun s t h ht => ?_⟩
  · exact ⟨_, step_of_data hs (inRange_of h0 h1) hc, endsWith_halt s⟩
  · obtain ⟨hs, hr, hv⟩ := step_halted h ht
    obtain ⟨h0, h1⟩ := inRange_iff.1 hr
    exact ⟨hs, h0, h1, hv⟩

/-- Settles O27: a step that faults is a `raise`. -/
theorem faultChangesOnlyTheStatus : Obligations.FaultChangesOnlyTheStatus := by
  intro s t k h ht
  obtain ⟨r, -, rfl⟩ := step_faulted h ht
  rw [← ht]
  rfl

/-- Settles O28: only a memory access faults, and only out of range or on an instruction cell. -/
theorem thingsThatAreNotFaults : Obligations.ThingsThatAreNotFaults := by
  refine ⟨fun s rs rt hz => ?_, fun i s hl hst => ?_, fun s tgt base imm h0 h1 => ?_,
    fun s tgt base imm h0 h1 => ?_, fun s tgt base imm v i hi h0 h1 hc => ?_,
    fun s v hs h0 h1 hc => ?_, fun s t k h ht => ?_⟩
  · have hint : s.srcInt rt = 0 := by rw [srcInt_eq, hz]; rfl
    have habs : s.srcAbs rt = 0 := by rw [State.srcAbs, hint]; rfl
    exact ⟨⟨_, rfl, by simp [hint], by simp [hint], rfl⟩,
      ⟨_, rfl, by simp [habs], by simp [habs], rfl⟩⟩
  · obtain ⟨t, h⟩ := exec_next i s
    refine ⟨t, h, (exec_effect h).status_kept_or_raised.resolve_right ?_⟩
    exact fun hr => hr.1.elim hl hst
  · exact store_completes h0 h1 _
  · exact store_completes h0 h1 _
  · have hread : s.memRead (s.effAddr base imm) = .ok v := memRead_of_data h0 h1 hc
    obtain rfl | rfl | rfl := hi
    · exact ⟨_, load_answers (f := id) hread, by simp⟩
    · exact ⟨_, load_answers (f := byteAsWord) hread, by simp⟩
    · exact ⟨_, load_answers (f := byteAsWord) hread, by simp⟩
  · exact ⟨_, step_of_data hs (inRange_of h0 h1) hc, rfl⟩
  · obtain ⟨r, hk, rfl⟩ := step_faulted h ht
    exact Status.faulted.inj ht ▸ hk

/-! ### The statements on the transfers -/

/-- A branch lands one cell beyond, or beyond its immediate too. -/
theorem branch_done_bounds {s t : State} {b : Bool} {imm : BitVec 16}
    (h : (s.branch b imm).done = .next t) : s.pc + 1 ≤ t.pc ∧ t.pc ≤ s.pc + 65536 := by
  have himm := imm.isLt
  rw [branch_done_pc h]
  split <;> omega

/-- Settles O30: by the width of the immediate, of the target and of a register. -/
theorem pcAfterATransfer : Obligations.PcAfterATransfer := by
  refine ⟨fun s t i hf h => ?_, fun s t target h => ?_, fun s t rs h => ?_⟩
  · cases i with
    | beq | bne | bltz => exact branch_done_bounds h
    | _ => cases hf
  · have htarget := target.isLt
    have hpc : t.pc = target.toNat + 1 := by
      obtain h | h := h
      all_goals exact Host.Outcome.next.inj h ▸ rfl
    omega
  · have hsrc := srcInt_bounds (s := s) rs
    have hpc : t.pc = s.srcInt rs + 1 := Host.Outcome.next.inj h ▸ rfl
    omega

/-- Settles O35: the parameter bound keeps the link exact (`toInt_wrap32`). -/
theorem callThenReturnSkipsACell : Obligations.CallThenReturnSkipsACell := by
  intro s target hc h0 h1
  have hm := memWords_le hc
  have hlink : (wrap32 (s.pc + 1)).toInt = s.pc + 1 := toInt_wrap32 (by omega) (by omega)
  refine ⟨_, rfl, rfl, by simp [hlink], fun u hu => ⟨_, rfl, ?_⟩⟩
  have hsrc : u.srcInt (.reg 31) = s.pc + 1 := by simp [srcInt_eq, hu, hlink]
  simp [hsrc]
  omega

end Sys2Proof.Machine

/-! The statements on values and on the results of the instructions (spec/00_scope.md R8 and R9,
spec/41_arith_logic_compare.md to spec/46_control_transfer.md). `exec` of each is one of the ways to
end of Sys2Proof/Laws/Frames.lean; what is left is the value written. -/

namespace Sys2Proof.Machine

/-! ### Values -/

/-- The byte is the top eight bits, read as signed (spec/45_load_store.md R137). -/
theorem toInt_byteAsWord (v : Word) :
    (byteAsWord v).toInt =
      if v.toNat / 2 ^ 24 < 128 then ((v.toNat / 2 ^ 24 : Nat) : Int)
      else ((v.toNat / 2 ^ 24 : Nat) : Int) - 256 := by
  have hv := v.isLt
  have hbyte : (topByte v).toNat = v.toNat / 2 ^ 24 := by
    simp [topByte, Nat.shiftRight_eq_div_pow]
    omega
  rw [byteAsWord, BitVec.toInt_signExtend_of_le (by decide), BitVec.toInt_eq_toNat_cond, hbyte]
  split <;> split <;> omega

/-- Below a negative divisor the floor remainder is not positive. -/
theorem fmod_of_neg (a : Int) {b : Int} (hb : b < 0) : b < a.fmod b ∧ a.fmod b ≤ 0 := by
  have hneg := Int.neg_fmod_neg a b
  have hlow := Int.fmod_nonneg_of_pos (-a) (b := -b) (by omega)
  have hhigh := Int.fmod_lt_of_pos (-a) (b := -b) (by omega)
  omega

/-- Under either rounding the remainder lies below the divisor (R112). -/
theorem rem_natAbs_lt (r : DivRound) (a : Int) {b : Int} (hb : b ≠ 0) :
    (a - quot r a b * b).natAbs < b.natAbs := by
  cases r with
  | trunc =>
    rw [rem_trunc, Int.natAbs_tmod]
    exact Nat.mod_lt _ (Int.natAbs_pos.2 hb)
  | floor =>
    rw [rem_floor]
    rcases Int.lt_or_gt_of_ne hb with hneg | hpos
    · have := fmod_of_neg a hneg
      omega
    · have hlow := Int.fmod_nonneg_of_pos a hpos
      have hhigh := Int.fmod_lt_of_pos a hpos
      omega

/-- A remainder under trunc takes the sign of the dividend (R112). -/
theorem rem_trunc_pos_iff {a b : Int} (hr : a - quot .trunc a b * b ≠ 0) :
    0 < a - quot .trunc a b * b ↔ 0 < a := by
  rw [rem_trunc] at hr ⊢
  have hdvd : ¬b ∣ a := fun h => hr (Int.tmod_eq_zero_of_dvd h)
  rw [← Int.sign_eq_one_iff_pos, Int.sign_tmod, if_neg hdvd, Int.sign_eq_one_iff_pos]

/-- A remainder under floor takes the sign of the divisor (R112). -/
theorem rem_floor_pos_iff {a b : Int} (hb : b ≠ 0) (hr : a - quot .floor a b * b ≠ 0) :
    0 < a - quot .floor a b * b ↔ 0 < b := by
  rw [rem_floor] at hr ⊢
  rcases Int.lt_or_gt_of_ne hb with hneg | hpos
  · have := fmod_of_neg a hneg
    omega
  · have := Int.fmod_nonneg_of_pos a hpos
    omega

/-- `quot` of two naturals is their quotient, whichever the rounding. -/
theorem quot_natCast (r : DivRound) (m n : Nat) : quot r m n = (m / n : Nat) := by
  cases r with
  | trunc => exact (Int.ofNat_tdiv m n).symm
  | floor => exact (Int.ofNat_fdiv m n).symm

/-- The end of a division by zero. -/
theorem writesAcc_div_zero (s : State) (r : DivRound) (a : Int) :
    WritesAcc s (s.setHiLo (divHi r a 0) (divLo r a 0)).advance 0 0 := by
  rw [divHi_zero, divLo_zero]
  exact writesAcc_setHiLo s 0 0

/-- The end of any other division. -/
theorem writesAcc_div (s : State) (r : DivRound) (a : Int) {b : Int} (hb : b ≠ 0) :
    WritesAcc s (s.setHiLo (divHi r a b) (divLo r a b)).advance
      (wrap32 (a - quot r a b * b)) (wrap32 (quot r a b)) := by
  rw [divHi_of_ne hb, divLo_of_ne hb]
  exact writesAcc_setHiLo s _ _

/-! ### The statements on values, operands and reset -/

/-- Settles O1: the words are closed terms, and the decoder computes. -/
theorem decodesWordsWrittenOut : Obligations.DecodesWordsWrittenOut := by
  unfold Obligations.DecodesWordsWrittenOut
  decide

/-- Settles O10: `wrap32` is the balanced remainder modulo 2^32. -/
theorem wrapIsTheCongruentInt32 : Obligations.WrapIsTheCongruentInt32 := by
  intro z
  have hlow := BitVec.le_toInt (wrap32 z)
  have hhigh := BitVec.toInt_lt (x := wrap32 z)
  refine ⟨?_, by simpa using hlow, by simpa using hhigh⟩
  rw [wrap32, BitVec.toInt_ofInt]
  exact Int.bmod_emod

/-- Settles O11: by whether the field is zero. -/
theorem operandsReadAndWrite : Obligations.OperandsReadAndWrite := by
  intro s f v
  by_cases hf : f = 0
  · subst hf
    exact ⟨rfl, fun _ => rfl, fun h => absurd rfl h⟩
  · have hop : Operand.ofField f = .reg ⟨f.toNat, f.isLt⟩ := if_neg hf
    rw [hop, if_neg hf]
    refine ⟨rfl, fun h => absurd h hf, fun _ => ⟨fun r => ?_, ?_⟩⟩
    · simp [Fin.ext_iff, eq_comm]
    · exact ⟨⟨rfl, rfl⟩, fun _ => rfl, ⟨rfl, rfl⟩, rfl, rfl⟩

/-- Settles O14. -/
theorem byteAsWordIsTheSignedTopByte : Obligations.ByteAsWordIsTheSignedTopByte := toInt_byteAsWord

/-- Settles O15. -/
theorem resetLeavesEverythingZero : Obligations.ResetLeavesEverythingZero :=
  ⟨rfl, fun c => ⟨construct_reg c, rfl, rfl, construct_cell c, rfl, rfl, rfl, rfl⟩⟩

/-! ### The statements on register arithmetic, logic and comparison -/

/-- Settles O36. -/
theorem addSubResults : Obligations.AddSubResults :=
  fun _ _ _ _ => ⟨⟨_, rfl, writesReg_dst _ _ _⟩, ⟨_, rfl, writesReg_dst _ _ _⟩⟩

/-- Settles O37. -/
theorem absoluteAddSubResults : Obligations.AbsoluteAddSubResults :=
  fun _ _ _ _ => ⟨⟨_, rfl, writesReg_dst _ _ _⟩, ⟨_, rfl, writesReg_dst _ _ _⟩⟩

/-- Settles O38: the patterns of the bitwise operations on words. -/
theorem bitwiseResults : Obligations.BitwiseResults := fun _ _ _ _ =>
  ⟨⟨_, _, rfl, writesReg_dst _ _ _, BitVec.toNat_and _ _⟩,
    ⟨_, _, rfl, writesReg_dst _ _ _, BitVec.toNat_or _ _⟩,
    ⟨_, _, rfl, writesReg_dst _ _ _, BitVec.toNat_xor _ _⟩,
    ⟨_, _, rfl, writesReg_dst _ _ _, by rw [BitVec.toNat_not, BitVec.toNat_or]⟩⟩

/-- Settles O39. -/
theorem sltWritesZero : Obligations.SltWritesZero :=
  fun _ _ _ _ => ⟨_, rfl, writesReg_dst _ _ _⟩

/-! ### The statements on HI and LO -/

/-- Settles O40. -/
theorem accumulatorMoveResults : Obligations.AccumulatorMoveResults :=
  fun _ _ => ⟨⟨_, rfl, writesReg_dst _ _ _⟩, ⟨_, rfl, writesReg_dst _ _ _⟩⟩

/-- Settles O41: the product fits the two halves. -/
theorem multIsTheExactProduct : Obligations.MultIsTheExactProduct := by
  intro s rs rt
  have hp := product_bounds s rs rt
  exact ⟨_, _, _, rfl, writesAcc_setHiLo _ _ _, productHi_productLo (by omega) (by omega)⟩

/-- Settles O42: the absolute value of the product fits too. -/
theorem multuIsTheAbsoluteProduct : Obligations.MultuIsTheAbsoluteProduct := by
  intro s rs rt
  have hp := product_bounds s rs rt
  exact ⟨_, _, _, rfl, writesAcc_setHiLo _ _ _, productHi_productLo (by omega) (by omega)⟩

/-- Settles O43: quotient and remainder are `quot` and what it leaves of the dividend. -/
theorem divQuotientAndRemainder : Obligations.DivQuotientAndRemainder := by
  refine fun s rs rt => ⟨fun hz => ⟨_, rfl, ?_⟩, fun hb => ?_⟩
  · rw [srcInt_eq rt, hz]
    exact writesAcc_div_zero s _ _
  · refine ⟨_, quot s.config.divRound (s.srcInt rs) (s.srcInt rt), _, rfl,
      writesAcc_div s _ (s.srcInt rs) hb, (add_sub_cancel _ _).symm,
      rem_natAbs_lt _ (s.srcInt rs) hb, fun hr => ?_, fun hr => ?_⟩
    · rw [hr]
      exact rem_trunc_pos_iff
    · rw [hr]
      exact rem_floor_pos_iff hb

/-- Settles O44: on absolute values `quot` is the division of naturals. -/
theorem divuQuotientAndRemainder : Obligations.DivuQuotientAndRemainder := by
  refine fun s rs rt => ⟨fun hz => ⟨_, rfl, ?_⟩, fun hb => ?_⟩
  · have habs : s.srcAbs rt = 0 := by rw [State.srcAbs, srcInt_eq, hz]; rfl
    rw [habs]
    exact writesAcc_div_zero s _ _
  · have habs : s.srcAbs rt ≠ 0 := Int.natCast_ne_zero.2 (Int.natAbs_ne_zero.2 hb)
    have hquot : quot .floor (s.srcAbs rs) (s.srcAbs rt) =
        ((s.srcInt rs).natAbs / (s.srcInt rt).natAbs : Nat) := quot_natCast ..
    have hrem : s.srcAbs rs - quot .floor (s.srcAbs rs) (s.srcAbs rt) * s.srcAbs rt =
        ((s.srcInt rs).natAbs % (s.srcInt rt).natAbs : Nat) :=
      (rem_floor ..).trans (Int.ofNat_fmod ..).symm
    refine ⟨_, (s.srcInt rs).natAbs / (s.srcInt rt).natAbs,
      (s.srcInt rs).natAbs % (s.srcInt rt).natAbs, rfl, ?_, (Nat.div_add_mod' _ _).symm,
      Nat.mod_lt _ (Int.natAbs_pos.2 hb)⟩
    rw [← hrem, ← hquot]
    exact writesAcc_div s .floor (s.srcAbs rs) habs

/-! ### The statements on shifts and immediates -/

/-- Settles O45. -/
theorem leftShiftResults : Obligations.LeftShiftResults := fun _ _ _ _ _ =>
  ⟨⟨_, _, rfl, writesReg_dst _ _ _, toNat_shiftLeft _ _⟩,
    ⟨_, _, rfl, writesReg_dst _ _ _, toNat_shiftLeft _ _⟩⟩

/-- Settles O46. -/
theorem rightShiftResults : Obligations.RightShiftResults := fun _ _ _ _ _ =>
  ⟨⟨_, _, rfl, writesReg_dst _ _ _, toNat_shiftRight _ _⟩,
    ⟨_, _, rfl, writesReg_dst _ _ _, toNat_shiftRight _ _⟩,
    ⟨_, _, rfl, writesReg_dst _ _ _, toNat_shiftRight _ _⟩,
    ⟨_, _, rfl, writesReg_dst _ _ _, toNat_shiftRight _ _⟩⟩

/-- Settles O47. -/
theorem addImmediateResults : Obligations.AddImmediateResults :=
  fun _ _ _ _ => ⟨⟨_, rfl, writesReg_dst _ _ _⟩, ⟨_, rfl, writesReg_dst _ _ _⟩⟩

/-- Settles O48. -/
theorem sltiCompares : Obligations.SltiCompares :=
  fun _ _ _ _ => ⟨_, rfl, writesReg_dst _ _ _⟩

/-- Settles O49: the zero-extended immediate has the pattern of the immediate. -/
theorem logicImmediateResults : Obligations.LogicImmediateResults := fun _ _ _ _ =>
  ⟨⟨_, _, rfl, writesReg_dst _ _ _, by rw [BitVec.toNat_and, toNat_immWord]⟩,
    ⟨_, _, rfl, writesReg_dst _ _ _, by rw [BitVec.toNat_or, toNat_immWord]⟩,
    ⟨_, _, rfl, writesReg_dst _ _ _, by rw [BitVec.toNat_xor, toNat_immWord]⟩⟩

/-! ### The statements on loads and stores -/

/-- Settles O50. -/
theorem loadWordResult : Obligations.LoadWordResult :=
  fun _ _ _ _ _ h0 h1 hc =>
    ⟨_, load_answers (f := id) (memRead_of_data h0 h1 hc), writesReg_dst _ _ _⟩

/-- Settles O51. -/
theorem loadByteResults : Obligations.LoadByteResults :=
  fun _ _ _ _ _ h0 h1 hc =>
    ⟨⟨_, load_answers (f := byteAsWord) (memRead_of_data h0 h1 hc), writesReg_dst _ _ _⟩,
      ⟨_, load_answers (f := byteAsWord) (memRead_of_data h0 h1 hc), writesReg_dst _ _ _⟩⟩

/-- Settles O52. -/
theorem storeWordResult : Obligations.StoreWordResult :=
  fun _ _ _ _ hw h0 h1 => store_answers hw (inRange_of h0 h1)

/-- Settles O53: SB_SWAPPED selects the two operands. -/
theorem storeByteResult : Obligations.StoreByteResult := by
  refine fun s tgt base imm hw => ⟨fun hsb h0 h1 => ?_, fun hsb h0 h1 => ?_⟩
  · simpa [exec, execSb, State.sbAddrOperand, State.sbDataOperand, hsb, effAddr_eq] using
      store_answers hw (inRange_of h0 h1)
  · simpa [exec, execSb, State.sbAddrOperand, State.sbDataOperand, hsb, effAddr_eq] using
      store_answers hw (inRange_of h0 h1)

/-! ### The statements on the transfers -/

/-- Settles O56. -/
theorem jumpResults : Obligations.JumpResults :=
  fun s _ _ => ⟨⟨_, rfl, goesTo_setPc s _⟩, ⟨_, rfl, goesTo_setPc s _⟩⟩

/-- Settles O57. -/
theorem jumpAndLinkResult : Obligations.JumpAndLinkResult :=
  fun s _ => ⟨_, rfl, fun r => by simp, ⟨rfl, rfl⟩, fun _ => rfl, ⟨rfl, rfl⟩, rfl, rfl⟩

/-- A branch goes one cell beyond its target when taken, else one cell on. -/
theorem branch_goesTo (s : State) {b : Bool} {imm : BitVec 16} {p : Int}
    (hp : p = if b then s.pc + imm.toNat + 1 else s.pc + 1) :
    ∃ t, (s.branch b imm).done = .next t ∧ GoesTo s t p := by
  obtain ⟨t, ht, hgo⟩ := branch_answers s b imm
  refine ⟨t, ht, ?_⟩
  subst hp
  cases b <;> exact hgo

/-- Settles O58. -/
theorem equalityBranchResults : Obligations.EqualityBranchResults :=
  fun s _ _ _ => ⟨branch_goesTo s (by simp [BitVec.toInt_inj]),
    branch_goesTo s (by simp [BitVec.toInt_inj])⟩

/-- Settles O59. -/
theorem negativeBranchResult : Obligations.NegativeBranchResult :=
  fun s _ _ => branch_goesTo s (by simp)

end Sys2Proof.Machine

/-! The statements on the host's load and on the observation (spec/70_reset_and_hazards.md R172 and
R174, spec/20_memory.md R43). -/

namespace Sys2Proof.Machine

section Load

variable {s t : State}

/-! ### A complete load -/

/-- The effect of loading the records `is` into a running machine: they stand from `lp` on, in
order, and nothing else but `lp` changes. -/
structure Appends (is : List Instr) (s t : State) : Prop where
  cells : ∀ a, t.cell a =
    if a < s.lp then s.cell a else (is[a - s.lp]?).elim (s.cell a) Cell.instr
  lp : t.lp = s.lp + is.length
  regs : RegsKept s t
  acc : AccKept s t
  pc : t.pc = s.pc
  status : t.status = s.status
  config : t.config = s.config

/-- One record, then the rest: the record is at `lp`, the rest from the next cell on. -/
theorem Appends.cons {i : Instr} {is : List Instr} (hw : s.mem.wf = true)
    (h : Appends is { s.putCell s.lp (.instr i) with lp := s.lp + 1 } t) : Appends (i :: is) s t where
  cells := fun a => by
    have hcell := h.cells a
    change t.cell a = if a < s.lp + 1 then (s.putCell s.lp (.instr i)).cell a else
      (is[a - (s.lp + 1)]?).elim ((s.putCell s.lp (.instr i)).cell a) Cell.instr at hcell
    rw [hcell, putCell_cell hw]
    rcases Nat.lt_trichotomy a s.lp with hlt | rfl | hgt
    · simp [hlt, Nat.lt_succ_of_lt hlt, Nat.ne_of_lt hlt]
    · simp
    · have hsub : a - s.lp = a - (s.lp + 1) + 1 := by omega
      simp [hsub, Nat.not_lt.2 (Nat.le_of_lt hgt), Nat.not_lt.2 hgt, Nat.ne_of_gt hgt]
  lp := by rw [h.lp, List.length_cons]; exact Nat.add_right_comm ..
  regs := h.regs
  acc := h.acc
  pc := h.pc
  status := h.status
  config := h.config

/-- Words that all decode, and for which there are cells, are appended in order. -/
theorem loadProgram_appends {ws : List Word} {is : List Instr}
    (hdec : ws.map decode = is.map Except.ok) (hs : s.status = .running) (hw : s.mem.wf = true)
    (hlen : s.lp + ws.length ≤ s.config.memWords) : Appends is s (s.loadProgram ws) := by
  induction ws generalizing s is with
  | nil =>
    obtain rfl : is = [] := List.map_eq_nil_iff.1 hdec.symm
    exact ⟨fun a => by simp [State.loadProgram], rfl, fun _ => rfl, ⟨rfl, rfl⟩, rfl, rfl, rfl⟩
  | cons w ws ih =>
    cases is with
    | nil => cases hdec
    | cons i is =>
      obtain ⟨hhead, htail⟩ := List.cons.inj hdec
      rw [List.length_cons] at hlen
      rw [loadProgram_running hs, loadWord_appends hhead (by omega)]
      refine (ih htail ?_ ?_ ?_).cons hw
      · exact hs
      · exact putCell_wf hw ..
      · change s.lp + 1 + ws.length ≤ s.config.memWords
        omega

/-! ### Cells and their listing -/

theorem lt_of_mem_of_above {m : Memory} {a b : Nat} {c : Cell}
    (h : Memory.above b m = true) (hm : (a, c) ∈ m) : b < a := by
  simpa using List.all_eq_true.1 h (a, c) hm

/-- A canonical memory lists exactly the cells that are not untouched. -/
theorem mem_iff_read {m : Memory} (hw : m.wf = true) {a : Nat} {c : Cell} :
    (a, c) ∈ m ↔ m.read a = c ∧ c ≠ Cell.untouched := by
  induction m with
  | nil => simpa using fun h => h.symm
  | cons p m ih =>
    obtain ⟨b, d⟩ := p
    obtain ⟨hd, habove, hwf⟩ := wf_cons.1 hw
    rw [List.mem_cons, ih hwf, read_cons, Prod.mk.injEq]
    by_cases hab : a = b
    · subst hab
      have hread := read_of_above habove (Nat.le_refl a)
      simp only [true_and, if_true, hread]
      constructor
      · rintro (rfl | ⟨rfl, hne⟩)
        · exact ⟨rfl, hd⟩
        · exact absurd rfl hne
      · exact fun h => .inl h.1.symm
    · simp [hab]

/-- A canonical memory lists its cells in index order. -/
theorem pairwise_index_lt {m : Memory} (hw : m.wf = true) :
    m.Pairwise fun p q => p.1 < q.1 := by
  induction m with
  | nil => exact .nil
  | cons p m ih =>
    obtain ⟨-, habove, hwf⟩ := wf_cons.1 hw
    exact .cons (fun q hq => lt_of_mem_of_above habove hq) (ih hwf)

/-- What the observation lists of a cell is its nonzero data, at its index. -/
theorem shown_eq_some {a b : Nat} {c : Cell} {v : Word} :
    c.shown b = some (a, v) ↔ b = a ∧ c = .data v ∧ v ≠ 0 := by
  cases c with
  | instr i => simp
  | data u =>
    by_cases hu : u = 0
    · subst hu
      exact ⟨nofun, fun ⟨_, hc, hv⟩ => absurd (Cell.data.inj hc).symm hv⟩
    · simp only [shown_data, if_neg hu, Option.some.injEq, Prod.mk.injEq, Cell.data.injEq]
      exact and_congr_right fun _ => ⟨fun h => ⟨h, h ▸ hu⟩, fun h => h.1⟩

end Load

/-! ### The statements -/

/-- Settles O32: from reset `lp` is 0, so the records fill the first cells. -/
theorem loadedProgramFillsTheFirstCells : Obligations.LoadedProgramFillsTheFirstCells := by
  intro c ws is hdec hlen
  have happ := loadProgram_appends (s := State.construct c) hdec rfl rfl (by simpa using hlen)
  have hlength : ws.length = is.length := by simpa using congrArg List.length hdec
  refine ⟨happ.status, ?_, fun a => ?_, happ.regs, happ.acc, happ.pc, happ.config⟩
  · rw [happ.lp, hlength, construct_lp, Nat.zero_add]
  · rw [happ.cells a]
    cases h : is[a]? <;> simp [h]

/-- Settles O33: the failing word sets the fault, and a faulted load takes no word. -/
theorem failedLoadEndsTheRun : Obligations.FailedLoadEndsTheRun := by
  refine ⟨fun s w ws e hs hdec => ?_, fun s w ws i hs hdec hl => ?_⟩
  · rw [loadProgram_running hs, loadWord_illegal hdec]
    exact ⟨endsWith_raise s _, loadProgram_faulted rfl ws⟩
  · rw [loadProgram_running hs, loadWord_full hdec hl]
    exact ⟨endsWith_raise s _, loadProgram_faulted rfl ws⟩

/-- Settles O34: the listing of a canonical memory, filtered. -/
theorem observationShowsNonzeroDataCells : Obligations.ObservationShowsNonzeroDataCells := by
  refine fun s hw => ⟨fun a v => ?_, ?_, fun r => rfl⟩
  · simp only [State.observe, List.mem_filterMap, shown_eq_some]
    constructor
    · rintro ⟨⟨b, c⟩, hmem, rfl, rfl, hv⟩
      exact ⟨(mem_iff_read hw).1 hmem |>.1, hv⟩
    · rintro ⟨hcell, hv⟩
      exact ⟨(a, .data v), (mem_iff_read hw).2 ⟨hcell, by simpa [Cell.untouched] using hv⟩,
        rfl, rfl, hv⟩
  · rw [State.observe, List.pairwise_map, List.pairwise_filterMap]
    refine (pairwise_index_lt hw).imp fun {p q} hlt u hu v hv => ?_
    obtain ⟨hp, -⟩ := shown_eq_some.1 hu
    obtain ⟨hq, -⟩ := shown_eq_some.1 hv
    exact hp ▸ hq ▸ hlt

end Sys2Proof.Machine
